-- ==== Sys2Proof/Word.lean ====
section
/-! DEFINITION. The byte and word types of the engine (00_scope.md R10), byte sequences of a fixed
length (R11) and the two operand spaces (20_memory.md R63). -/

namespace Sys2Proof

/-- A byte is an unsigned 8-bit value (R10). -/
abbrev Byte := BitVec 8

/-- A word is an unsigned 32-bit value (R10). -/
abbrev Word := BitVec 32

/-- A byte sequence of exactly `n` bytes, such as `Byte[48]` (R11, R38). -/
abbrev Bytes (n : Nat) := Vector Byte n

/-- The two operand spaces a range names (R63): the data memory and the 48 bytes of S. -/
inductive Space where
  /-- MEM, the data memory (bit value 0). -/
  | mem
  /-- STATE, the permutation state S by byte offset (bit value 1). -/
  | state
deriving DecidableEq, Repr

end Sys2Proof
end

