-- ==== Sys2Proof/Config.lean ====
section
/-! DEFINITION. What one implementation or platform fixes: the named parameters that the spec leaves
OPEN (00_scope.md R8, R9; 93_implementation_defined.md U11 to U13), and the free values that the spec
calls unspecified (U1, U2, U3, U7). The parameters are plain data and the machine's State carries them
as its field `cfg`, so that a statement over all states is a statement over all parameters. -/

namespace Sys2Proof

/-- What a region of the platform's memory map holds (R72). -/
inductive RegionKind where
  /-- Idempotent memory, as the engine assumes (R72). -/
  | plain
  /-- Memory with side effects on read or write: the spec gives a command that touches it unspecified
  results (R72, U7). -/
  | sideEffect
deriving DecidableEq, Repr

/-- A region `[base, base + size)` of data-memory addresses the engine's bus reaches. -/
structure Region where
  base : Nat
  size : Nat
  kind : RegionKind
deriving DecidableEq, Repr

/-- The parameters of the model: the domain constants of R8 and the platform parameters of R9. -/
structure Config where
  /-- PREFIX, the 8-byte constant of Setup step 1 (R8). -/
  domainPrefix : Bytes 8
  /-- TAG_HEADER, the role tag "header". -/
  tagHeader : Byte
  /-- TAG_PAYLOAD, the role tag "payload". -/
  tagPayload : Byte
  /-- TAG_FINAL, the role tag "final" of pass 2. -/
  tagFinal : Byte
  /-- TAG_FINAL0, the role tag "final0" of pass 1. -/
  tagFinal0 : Byte
  /-- TAG_KEY0, the keyRoleTag "key0" of pass 1. -/
  tagKey0 : Byte
  /-- TAG_KEY, the keyRoleTag "key" of pass 2 and of decryption. -/
  tagKey : Byte
  /-- DOM_XOF, the Pad domain of the SIV derivation; below 128 by its type (R8, D24). -/
  domXof : BitVec 7
  /-- DOM_AEAD, the Pad domain of the AEAD data; below 128 by its type (R8, D24). -/
  domAead : BitVec 7
  /-- REG_BASE, the bus address of the 256-byte register block (R9, U12).
  DESIGN CHOICE (log 22): a 32-bit address. -/
  regBase : Word
  /-- The map behind MemAdmit (R9, U11): the engine's bus reaches exactly the bytes of these regions. -/
  memMap : List Region
deriving DecidableEq, Repr

/-- PRESUMED (log 1): the default constants of R8, which the spec itself takes from general knowledge (G2).
DESIGN CHOICE (log 2, log 3): REG_BASE = 0 and every byte of data memory admitted and idempotent. -/
def Config.default : Config where
  domainPrefix := #v[0x06, 0x73, 0x62, 0x78, 0x32, 0x35, 0x36, 0x08]
  tagHeader := 0x01
  tagPayload := 0x02
  tagFinal := 0x08
  tagFinal0 := 0xF8
  tagKey0 := 0xFE
  tagKey := 0xFF
  domXof := 0x0F
  domAead := 0x00
  regBase := 0
  memMap := [⟨0, 2 ^ 32, .plain⟩]

/-- The free draws of R244, R271 and R72 (U1, U2, U7, `any value`): the byte of draw number `n`.
It has no body, so no claim can rest on its value (log 4). -/
opaque Config.freeByte : Nat → Byte

/-- What data memory holds at address `a` after power-up, before anything has written it
(R272, U3, `any value`). It has no body, so no claim can rest on its value (log 5). -/
opaque Config.powerUpByte : Nat → Byte

end Sys2Proof
end

