-- ==== Sys2Proof/Syntax.lean ====
section
/-! DEFINITION. The fourteen commands of the engine, one constructor per row of
30_encoding.md R93 and of opcode_table.json, with the fields each row uses (R91, R92). -/

namespace Sys2Proof

/-- A command of the engine. Operands that are not fields of the command word come from registers
(R99) and stand in the machine's state. -/
inductive Instr where
  /-- PERMUTE (0x01): permute S with a role tag (R125). -/
  | permute (tag : Byte)
  /-- ZERO (0x02): set range D to zero bytes (R141). -/
  | zero (dsp : Space)
  /-- COPY (0x03): copy range A to range D (R142). -/
  | copy (asp dsp : Space)
  /-- XOR (0x04): XOR range A into range D (R143). -/
  | xor (asp dsp : Space)
  /-- XOR2 (0x05): write the XOR of ranges A and B to range D (R144). -/
  | xor2 (asp bsp dsp : Space)
  /-- CMP (0x06): compare ranges A and B into CMP_ACC (R145). -/
  | cmp (asp bsp : Space)
  /-- SETUP (0x08): S becomes Setup of KEY, CTX, IV and MSGID with a key-role tag (R171). -/
  | setup (tag : Byte)
  /-- FINALIZE (0x09): absorb the key into the capacity twice (R173). -/
  | finalize (tag : Byte)
  /-- PAD (0x0A): mark the end of the data at byte offset `pos` of the rate (R175). DESIGN CHOICE (log 18):
  a natural number, checked by Instr.wellFormed. -/
  | pad (pos : Nat) (dom : BitVec 7)
  /-- ABSORB (0x0B): absorb a message from memory (R177). -/
  | absorb (tag : Byte) (dom : BitVec 7)
  /-- ENCSTREAM (0x0C): the encrypt duplex stream (R179). -/
  | encstream (tag : Byte) (dom : BitVec 7)
  /-- DECSTREAM (0x0D): the decrypt duplex stream (R181). -/
  | decstream (tag : Byte) (dom : BitVec 7)
  /-- AEAD_ENC (0x10): the complete two-pass encryption (R215). -/
  | aeadEnc
  /-- AEAD_DEC (0x11): the complete authenticated decryption (R218). -/
  | aeadDec
deriving DecidableEq, Repr

end Sys2Proof
end

