-- ==== Sys2Proof/WellFormed.lean ====
section
/-! DEFINITION. The checks on syntax and parameters: what a command's fields may hold
(30_encoding.md R91, 42_sponge.md R174), the constraints the spec puts on the parameters (00_scope.md R8;
20_memory.md R60), and the one the model adds for REG_BASE, which the spec leaves OPEN (log 22). -/

namespace Sys2Proof

/-- A command that a command word can express. Tags, domains and spaces are right by their types;
the position of PAD is a byte offset into the rate, 0 to 15 (R91, R174). -/
def Instr.wellFormed (i : Instr) : Bool :=
  match i with
  | .pad pos _ => decide (pos < 16)
  | .permute _ | .zero _ | .copy _ _ | .xor _ _ | .xor2 _ _ _ | .cmp _ _ | .setup _ | .finalize _
  | .absorb _ _ | .encstream _ _ | .decstream _ _ | .aeadEnc | .aeadDec => true

/-- "two distinct constant tag bytes": TAG_KEY0 ≠ TAG_KEY (R8). -/
def Config.keyTagsDiffer (c : Config) : Bool := decide (c.tagKey0 ≠ c.tagKey)

/-- "a different constant": DOM_XOF ≠ DOM_AEAD (R8). -/
def Config.domainsDiffer (c : Config) : Bool := decide (c.domXof ≠ c.domAead)

/-- The 256 bytes of the register block (R73) all have a 32-bit bus address.
DESIGN CHOICE (log 22): the spec leaves REG_BASE OPEN (R9, U12) and gives it neither a width nor a bound. -/
def Config.regBlockFits (c : Config) : Bool := decide (c.regBase.toNat + 256 ≤ 2 ^ 32)

/-- Every region of the memory map lies inside the data memory's addresses (R60). -/
def Config.memMapFits (c : Config) : Bool := c.memMap.all (fun r => decide (r.base + r.size ≤ 2 ^ 32))

/-- The parameters meet every constraint of the spec, and the model's own on REG_BASE (log 22). -/
def Config.wellFormed (c : Config) : Bool :=
  c.keyTagsDiffer && c.domainsDiffer && c.regBlockFits && c.memMapFits

end Sys2Proof
end

