-- ==== Sys2Proof/Decode.lean ====
section
/-! DEFINITION. The decoder of command words (30_encoding.md R91 to R98), total on all 2^32 words and
rejecting by name, and after it the encoder, written from the same tables. -/

namespace Sys2Proof

/-- The rows of the opcode map (R93), by mnemonic. -/
inductive Opcode where
  | permute | zero | copy | xor | xor2 | cmp | setup | finalize | pad | absorb | encstream | decstream
  | aeadEnc | aeadDec
deriving DecidableEq, Repr

/-- Why a word is an illegal encoding (R95). Each of the three completes with ILLEGAL. -/
inductive Reject where
  /-- The OP byte is 0x00, 0x07, 0x0E, 0x0F or one of 0x12 to 0xFF. -/
  | unassignedOpcode (op : Byte)
  /-- OP is assigned and RSV ≠ 0. -/
  | reservedBits
  /-- OP is assigned and a bit of a field that the command does not use is set. -/
  | unusedField
deriving DecidableEq, Repr

/-- All rows, in the order of R93. -/
def Opcode.all : List Opcode :=
  [.permute, .zero, .copy, .xor, .xor2, .cmp, .setup, .finalize, .pad, .absorb, .encstream, .decstream,
   .aeadEnc, .aeadDec]

/-- The OP byte of a row (R93). -/
def Opcode.op (o : Opcode) : Byte :=
  match o with
  | .permute => 0x01
  | .zero => 0x02
  | .copy => 0x03
  | .xor => 0x04
  | .xor2 => 0x05
  | .cmp => 0x06
  | .setup => 0x08
  | .finalize => 0x09
  | .pad => 0x0A
  | .absorb => 0x0B
  | .encstream => 0x0C
  | .decstream => 0x0D
  | .aeadEnc => 0x10
  | .aeadDec => 0x11

/-- The match column of R94. -/
def Opcode.matchWord (o : Opcode) : Word :=
  match o with
  | .permute => 0x00000001
  | .zero => 0x00000002
  | .copy => 0x00000003
  | .xor => 0x00000004
  | .xor2 => 0x00000005
  | .cmp => 0x00000006
  | .setup => 0x00000008
  | .finalize => 0x00000009
  | .pad => 0x0000000A
  | .absorb => 0x0000000B
  | .encstream => 0x0000000C
  | .decstream => 0x0000000D
  | .aeadEnc => 0x00000010
  | .aeadDec => 0x00000011

/-- The mask column of R94: the bits outside it are the row's used fields. -/
def Opcode.mask (o : Opcode) : Word :=
  match o with
  | .permute => 0xFFFF00FF
  | .zero => 0xDFFFFFFF
  | .copy => 0xD7FFFFFF
  | .xor => 0xD7FFFFFF
  | .xor2 => 0xC7FFFFFF
  | .cmp => 0xE7FFFFFF
  | .setup => 0xFFFF00FF
  | .finalize => 0xFFFF00FF
  | .pad => 0xF800FFFF
  | .absorb => 0xF80F00FF
  | .encstream => 0xF80F00FF
  | .decstream => 0xF80F00FF
  | .aeadEnc => 0xFFFFFFFF
  | .aeadDec => 0xFFFFFFFF

/-- The row selects the word: `(w & mask) = match` (R94). -/
def Opcode.selects (o : Opcode) (w : Word) : Bool := decide (w &&& o.mask = o.matchWord)

/-- `tag = CMDL[15:8]` (R92). -/
def tagField (w : Word) : Byte := w.extractLsb' 8 8

/-- `pos = zext(CMDL[19:16])` (R92). -/
def posField (w : Word) : Nat := (w.extractLsb' 16 4).toNat

/-- `dom = CMDL[26:20]` (R92). -/
def domField (w : Word) : BitVec 7 := w.extractLsb' 20 7

/-- A space bit: 0 = MEM and 1 = STATE (R92). -/
def spaceOfBit (b : Bool) : Space := if b then .state else .mem

/-- `asp = CMDL[27]` (R92). -/
def aspField (w : Word) : Space := spaceOfBit (w.getLsbD 27)

/-- `bsp = CMDL[28]` (R92). -/
def bspField (w : Word) : Space := spaceOfBit (w.getLsbD 28)

/-- `dsp = CMDL[29]` (R92). -/
def dspField (w : Word) : Space := spaceOfBit (w.getLsbD 29)

/-- Operand assembly: the command of a row with the fields it uses (R92, R93). -/
def Opcode.assemble (o : Opcode) (w : Word) : Instr :=
  match o with
  | .permute => .permute (tagField w)
  | .zero => .zero (dspField w)
  | .copy => .copy (aspField w) (dspField w)
  | .xor => .xor (aspField w) (dspField w)
  | .xor2 => .xor2 (aspField w) (bspField w) (dspField w)
  | .cmp => .cmp (aspField w) (bspField w)
  | .setup => .setup (tagField w)
  | .finalize => .finalize (tagField w)
  | .pad => .pad (posField w) (domField w)
  | .absorb => .absorb (tagField w) (domField w)
  | .encstream => .encstream (tagField w) (domField w)
  | .decstream => .decstream (tagField w) (domField w)
  | .aeadEnc => .aeadEnc
  | .aeadDec => .aeadDec

/-- Which of R95's three reasons makes a word that matches no row illegal. -/
def rejectReason (w : Word) : Reject :=
  if Opcode.all.all (fun o => o.op != w.extractLsb' 0 8) then .unassignedOpcode (w.extractLsb' 0 8)
  else if w.extractLsb' 30 2 != 0 then .reservedBits
  else .unusedField

/-- `Decode(w)` (R97): the first row that selects the word, with its operands. A word that matches no
row is illegal (R95). -/
def decode (w : Word) : Except Reject Instr :=
  match Opcode.all.find? (fun o => o.selects w) with
  | some o => .ok (o.assemble w)
  | none => .error (rejectReason w)

/-- A command word from its fields, laid out as R91 lays them out: RSV[31:30] = 0, DSP, BSP, ASP, DOM,
POS, TAG, OP. -/
def fieldsToWord (op tag : Byte) (pos : BitVec 4) (dom : BitVec 7) (asp bsp dsp : Space) : Word :=
  op.zeroExtend 32 ||| (tag.zeroExtend 32 <<< 8) ||| (pos.zeroExtend 32 <<< 16) |||
    (dom.zeroExtend 32 <<< 20) ||| (bitOfSpace asp <<< 27) ||| (bitOfSpace bsp <<< 28) |||
    (bitOfSpace dsp <<< 29)
where
  /-- The bit of a space: MEM = 0, STATE = 1 (R91). -/
  bitOfSpace (sp : Space) : Word := match sp with
    | .mem => 0
    | .state => 1

/-- The command word of a command (R91, R93); a field the command does not use is 0. -/
def encode (i : Instr) : Word :=
  match i with
  | .permute tag => fieldsToWord 0x01 tag 0 0 .mem .mem .mem
  | .zero dsp => fieldsToWord 0x02 0 0 0 .mem .mem dsp
  | .copy asp dsp => fieldsToWord 0x03 0 0 0 asp .mem dsp
  | .xor asp dsp => fieldsToWord 0x04 0 0 0 asp .mem dsp
  | .xor2 asp bsp dsp => fieldsToWord 0x05 0 0 0 asp bsp dsp
  | .cmp asp bsp => fieldsToWord 0x06 0 0 0 asp bsp .mem
  | .setup tag => fieldsToWord 0x08 tag 0 0 .mem .mem .mem
  | .finalize tag => fieldsToWord 0x09 tag 0 0 .mem .mem .mem
  | .pad pos dom => fieldsToWord 0x0A 0 (BitVec.ofNat 4 pos) dom .mem .mem .mem
  | .absorb tag dom => fieldsToWord 0x0B tag 0 dom .mem .mem .mem
  | .encstream tag dom => fieldsToWord 0x0C tag 0 dom .mem .mem .mem
  | .decstream tag dom => fieldsToWord 0x0D tag 0 dom .mem .mem .mem
  | .aeadEnc => fieldsToWord 0x10 0 0 0 .mem .mem .mem
  | .aeadDec => fieldsToWord 0x11 0 0 0 .mem .mem .mem

/-- The row of the opcode map that a command belongs to (R93). -/
def Instr.opcode (i : Instr) : Opcode :=
  match i with
  | .permute _ => .permute
  | .zero _ => .zero
  | .copy _ _ => .copy
  | .xor _ _ => .xor
  | .xor2 _ _ _ => .xor2
  | .cmp _ _ => .cmp
  | .setup _ => .setup
  | .finalize _ => .finalize
  | .pad _ _ => .pad
  | .absorb _ _ => .absorb
  | .encstream _ _ => .encstream
  | .decstream _ _ => .decstream
  | .aeadEnc => .aeadEnc
  | .aeadDec => .aeadDec

/-- The command word whose low `nbits` bits are `w`'s and whose other bits are 0. Every command is one
32-bit word (R90), so this is the whole instruction. -/
def tableWord (nbits w : Nat) : Word := BitVec.ofNat 32 (w % 2 ^ nbits)

/-- The command this decoder reads from an instruction numbered as opcode_table.json numbers it. A
command is one word written to CMD (R90), so there is no byte order to choose, and bits beyond the
32nd are not an instruction of this engine. DESIGN CHOICE (log 17). -/
def decodeTableWord (nbits w : Nat) : Option Instr :=
  if w % 2 ^ nbits < 2 ^ 32 then
    match decode (tableWord nbits w) with
    | .ok i => some i
    | .error _ => none
  else none

end Sys2Proof
end

