-- ==== Sys2Proof/Machine/State.lean ====
section
/-! DEFINITION. The machine's state as plain data (10_state.md R20 to R42), the inputs of the outside
world it takes (20_memory.md R71, R78; 70_reset_and_hazards.md R270), the reasons a step can stop, and
the state right after reset (R41). -/

namespace Sys2Proof.Machine

/-- STATUS.ERRCODE (R25, R241). The codes 8 to 15 are reserved and never produced, so they have no
constructor (DESIGN CHOICE, log 19). -/
inductive Code where
  /-- 0: the command completed normally. -/
  | ok
  /-- 1: the command word matches no row. -/
  | illegal
  /-- 2: a STATE-space range does not fit in the 48 bytes of S. -/
  | stateRange
  /-- 3: a MEM range does not fit below 2^32. -/
  | wrap
  /-- 4: a destination overlaps a source in a way that is not admitted. -/
  | aliasing
  /-- 5: AEAD_DEC with LEN < 36. -/
  | len
  /-- 6: some byte of a MEM range is not admitted. -/
  | bus
  /-- 7: AEAD_DEC's recomputed tag differs from the ciphertext's. -/
  | auth
deriving DecidableEq, Repr

/-- An action of the outside world, or the engine's turn. Which of them comes next is plain data of the
state (log 6). Bus addresses are as issued; a width is a number of bytes. DESIGN CHOICE (log 12): registers
and data memory are two targets of the host. -/
inductive Input where
  /-- The engine's turn: it performs the latched command if BUSY = 1 (R246). -/
  | engine
  /-- The host writes a register over the bus (R71). -/
  | regWrite (addr : Word) (width : Nat) (data : Word)
  /-- The host reads a register over the bus (R71). -/
  | regRead (addr : Word) (width : Nat)
  /-- The host writes a byte of data memory (R60, R78). -/
  | memWrite (addr : Word) (data : Byte)
  /-- The host reads a byte of data memory (R60, R78). -/
  | memRead (addr : Word)
  /-- The platform asserts reset (R270). -/
  | reset
deriving DecidableEq, Repr

/-- Data memory: the bytes that something has written, by rising address. An address that is not listed
holds what it held at power-up (R272). -/
abbrev Memory := List Host.Cell

/-- The machine. The fields `S` to `mem` are the spec's own (R38); the others are the model's (log 2,
log 4, log 6, log 7). -/
structure State where
  /-- S, the permutation state (R20). -/
  S : Bytes 48
  /-- KEY (R33). -/
  key : Bytes 32
  /-- CTX (R31). -/
  ctx : Bytes 8
  /-- IV (R32). -/
  iv : Bytes 20
  /-- MSGID, as one 64-bit pattern (R30). -/
  msgid : BitVec 64
  /-- LEN (R27). -/
  len : Word
  /-- ADDR_A (R28). -/
  addrA : Word
  /-- ADDR_B (R28). -/
  addrB : Word
  /-- ADDR_D (R28). -/
  addrD : Word
  /-- CMP_ACC (R29). -/
  cmpAcc : Word
  /-- CTRL.IE (R24). -/
  ie : Bool
  /-- STATUS.BUSY (R25). -/
  busy : Bool
  /-- STATUS.DONE (R25). -/
  done : Bool
  /-- STATUS.OVR (R25). -/
  ovr : Bool
  /-- STATUS.ERRCODE (R25). -/
  errcode : Code
  /-- CMDL, the hidden latched command word (R38). -/
  cmdl : Word
  /-- Mem, the data memory shared with the host (R60). -/
  mem : Memory
  /-- MODEL: the parameters of R8 and R9. No step changes them. -/
  cfg : Config
  /-- MODEL: the inputs still to come, the next one first (log 6). -/
  pending : List Input
  /-- MODEL: the word the host's last register read returned (log 7). -/
  hostWord : Word
  /-- MODEL: the byte the host's last data-memory read returned (log 7). -/
  hostByte : Byte
  /-- MODEL: how many free bytes have been drawn (log 4). -/
  draws : Nat
deriving DecidableEq, Repr

/-- Why the machine stops. -/
inductive Fault where
  /-- HOST_RACE: raised by a host memory access to a range of the running command that R78 forbids.
  Safe: the spec itself makes it a fault (R78, U4), and no claim holds past it. -/
  | hostRace (addr : Word)
deriving DecidableEq, Repr

/-- Why an action has no meaning in the model. -/
inductive Refusal where
  /-- An instruction whose meaning is not written yet, by its mnemonic. Safe. No arm raises it. -/
  | notModelled (mnemonic : String)
  /-- Raised by a host register access that is not an aligned 32-bit access (R71, U5 `refuse`).
  Safe: the spec gives the access no meaning. -/
  | registerAccess (offset width : Nat)
  /-- Raised by a host register access at a bus address outside the 256-byte register block: it reaches
  another device of the platform, whose map is OPEN (R73). Safe. -/
  | outsideRegisterBlock (addr : Word)
deriving DecidableEq, Repr

/-- The machine right after reset: every engine field has its value of R41. Data memory is not engine
state and lists nothing (R272). DESIGN CHOICE (log 2, log 3, log 4, log 6, log 7): the model's own fields. -/
def State.reset : State where
  S := Vector.replicate 48 0
  key := Vector.replicate 32 0
  ctx := Vector.replicate 8 0
  iv := Vector.replicate 20 0
  msgid := 0
  len := 0
  addrA := 0
  addrB := 0
  addrD := 0
  cmpAcc := 0
  ie := false
  busy := false
  done := false
  ovr := false
  errcode := .ok
  cmdl := 0
  mem := []
  cfg := Config.default
  pending := []
  hostWord := 0
  hostByte := 0
  draws := 0

end Sys2Proof.Machine
end

