-- ==== Sys2Proof/Machine/Ops.lean ====
section
/-! DEFINITION. The named operations over byte sequences, the data memory and the engine's registers:
byte order (10_state.md R20, R23; 20_memory.md R69, R70), MemRead and MemWrite (00_scope.md R12),
issue and completion of a command (60_exceptions.md R246, R247), and reset (R270, R271). The engine
takes no exceptions (R240): what stands in their place is completion with an error code,
`State.complete`, and there is no return from it (R250). -/

namespace Sys2Proof.Machine

/-! ## Byte order and byte sequences -/

/-- A word from its four bytes, byte 0 first: little-endian (R20, R69). -/
def le32 (b0 b1 b2 b3 : Byte) : Word :=
  b0.zeroExtend 32 ||| (b1.zeroExtend 32 <<< 8) ||| (b2.zeroExtend 32 <<< 16) ||| (b3.zeroExtend 32 <<< 24)

/-- Byte `k` of a word, bits [8k+7:8k] (R23). -/
def wordByte (w : Word) (k : Nat) : Byte := w.extractLsb' (8 * k) 8

/-- The 8-byte little-endian encoding of a 64-bit pattern (R11). -/
def le64 (v : BitVec 64) : List Byte := (List.range 8).map (fun k => v.extractLsb' (8 * k) 8)

/-- `B[i]` (R11). Every caller's `i` is below `n`. -/
def byteAt {n : Nat} (v : Bytes n) (i : Nat) : Byte := v.toList.getD i 0

/-- Word `k` of a byte field: byte 4k+i of the field is bits [8i+7:8i] (R20, R23). -/
def wordAt {n : Nat} (v : Bytes n) (k : Nat) : Word :=
  le32 (byteAt v (4 * k)) (byteAt v (4 * k + 1)) (byteAt v (4 * k + 2)) (byteAt v (4 * k + 3))

/-- The bytes `B[a..a+len)` (R11). -/
def bytesFrom {n : Nat} (v : Bytes n) (a len : Nat) : List Byte := (v.toList.drop a).take len

/-- `for i: B[a+i] <- bs[i]` (R65). A byte that would fall past the end of `B` is dropped; every caller's
range fits. -/
def putBytes {n : Nat} (v : Bytes n) (a : Nat) (bs : List Byte) : Bytes n :=
  match bs with
  | [] => v
  | b :: rest => putBytes (v.setIfInBounds a b) (a + 1) rest

/-- A write of word `w` to register `k` of a byte field (R23). -/
def putWord {n : Nat} (v : Bytes n) (k : Nat) (w : Word) : Bytes n :=
  putBytes v (4 * k) [wordByte w 0, wordByte w 1, wordByte w 2, wordByte w 3]

/-- `[a[i] ^ b[i] for i]` (R143, R144). -/
def xorBytes (a b : List Byte) : List Byte := List.zipWith (fun x y => x ^^^ y) a b

/-- `for i: B[a+i] <- B[a+i] ^ bs[i]` (R170, R172, R174, R176). -/
def xorInto {n : Nat} (v : Bytes n) (a : Nat) (bs : List Byte) : Bytes n :=
  putBytes v a (xorBytes (bytesFrom v a bs.length) bs)

/-- `0^n` as a sequence (R11). -/
def zeros (n : Nat) : List Byte := List.replicate n 0

/-- `0^48`, the zero permutation state (R11). -/
def zeroState : Bytes 48 := Vector.replicate 48 0

/-- `n` free bytes, from draw number `d` on (R244, U1). -/
def freeBytes (d n : Nat) : List Byte := (List.range n).map (fun i => Config.freeByte (d + i))

/-! ## Data memory -/

/-- What has been written to address `a`; `none` if nothing has been. -/
def Memory.get? (m : Memory) (a : Nat) : Option Byte :=
  match m with
  | [] => none
  | (k, v) :: rest => if k = a then some v else Memory.get? rest a

/-- The byte a read of address `a` returns: what was written there last, or the power-up content
(R60, R272). -/
def Memory.read (m : Memory) (a : Nat) : Byte := (m.get? a).getD (Config.powerUpByte a)

/-- Writes byte `v` at address `a`, keeping the addresses rising. -/
def Memory.set (m : Memory) (a : Nat) (v : Byte) : Memory :=
  match m with
  | [] => [(a, v)]
  | (k, w) :: rest =>
    if a < k then (a, v) :: (k, w) :: rest
    else if a = k then (a, v) :: rest
    else (k, w) :: Memory.set rest a v

/-- `MemRead(addr, n)` (R12). -/
def Memory.readBytes (m : Memory) (a n : Nat) : List Byte := (List.range n).map (fun i => m.read (a + i))

/-- `MemWrite(addr, n, v)` (R12), `n` being the length of `v`. -/
def Memory.writeBytes (m : Memory) (a : Nat) (bs : List Byte) : Memory :=
  match bs with
  | [] => m
  | b :: rest => Memory.writeBytes (m.set a b) (a + 1) rest

/-- The canonical form: addresses strictly rising, and all of them addresses of the data memory,
[0, 2^32) (R60). -/
def Memory.wf (m : Memory) : Bool :=
  decide (List.Pairwise (fun x y : Host.Cell => x.1 < y.1) m) && m.all (fun c => decide (c.1 < 2 ^ 32))

/-! ## The engine's registers -/

/-- Issue (R247): latch the word, set BUSY, clear DONE and ERRCODE. -/
def State.issue (s : State) (w : Word) : State :=
  { s with cmdl := w, busy := true, done := false, errcode := .ok }

/-- Completion (R246), whatever the outcome: ERRCODE, BUSY and DONE. -/
def State.complete (s : State) (c : Code) : State :=
  { s with errcode := c, busy := false, done := true }

/-- `S <- v`. -/
def State.setS (s : State) (v : Bytes 48) : State := { s with S := v }

/-- Replaces the data memory. -/
def State.setMem (s : State) (m : Memory) : State := { s with mem := m }

/-- `x[CMP_ACC] <- v`. -/
def State.setCmpAcc (s : State) (v : Word) : State := { s with cmpAcc := v }

/-- Replaces the inputs still to come. -/
def State.setPending (s : State) (l : List Input) : State := { s with pending := l }

/-- Counts `n` free bytes as drawn. -/
def State.countDraws (s : State) (n : Nat) : State := { s with draws := s.draws + n }

end Sys2Proof.Machine
end

