-- ==== Sys2Proof/Machine/Flags.lean ====
section
/-! DEFINITION. The flags of STATUS and the interrupt output (10_state.md R24, R25;
60_exceptions.md R241, R249). ERR, CMPNE and IRQ are functions of other state, not storage (R25, R38). -/

namespace Sys2Proof.Machine

/-- The number of an ERRCODE (R241). -/
def Code.number (c : Code) : BitVec 4 :=
  match c with
  | .ok => 0
  | .illegal => 1
  | .stateRange => 2
  | .wrap => 3
  | .aliasing => 4
  | .len => 5
  | .bus => 6
  | .auth => 7

/-- STATUS.ERR: ERRCODE ≠ 0 (R25). -/
def State.err (s : State) : Bool := s.errcode.number != 0

/-- STATUS.CMPNE: CMP_ACC ≠ 0 (R25). -/
def State.cmpne (s : State) : Bool := s.cmpAcc != 0

/-- The interrupt output: DONE & IE (R249). -/
def State.irq (s : State) : Bool := s.done && s.ie

/-- A flag at bit `n` of a word. -/
def flagBit (b : Bool) (n : Nat) : Word := if b then 1 <<< n else 0

/-- The word a read of STATUS returns (R25): BUSY, DONE, ERR, CMPNE, OVR in bits 0 to 4, ERRCODE in bits
11:8, reserved bits 0. -/
def State.statusWord (s : State) : Word :=
  flagBit s.busy 0 ||| flagBit s.done 1 ||| flagBit s.err 2 ||| flagBit s.cmpne 3 ||| flagBit s.ovr 4 |||
    (s.errcode.number.zeroExtend 32 <<< 8)

/-- A write of `v` to STATUS (R25): bit 1 clears DONE, bit 4 clears OVR. It takes effect even while BUSY. -/
def State.statusWrite (s : State) (v : Word) : State :=
  { s with done := s.done && !v.getLsbD 1, ovr := s.ovr && !v.getLsbD 4 }

/-- The word a read of CTRL returns (R24): IE in bit 0, KCLR reads 0, reserved bits 0. -/
def State.ctrlWord (s : State) : Word := flagBit s.ie 0

/-- A write of `v` to CTRL (R24, R36): bit 0 is IE, at any time; bit 1, KCLR, zeroes KEY if BUSY = 0. -/
def State.ctrlWrite (s : State) (v : Word) : State :=
  { s with
    ie := v.getLsbD 0
    key := if v.getLsbD 1 && !s.busy then Vector.replicate 32 0 else s.key }

end Sys2Proof.Machine
end

