-- ==== Sys2Proof/Machine/Operands.lean ====
section
/-! DEFINITION. Range operands: the two spaces (20_memory.md R63 to R65), validity (R64), aliasing
(R66, R67), admissibility (R61), the register operands of each command (30_encoding.md R99), the
validation order (60_exceptions.md R242), and what a command leaves unspecified (R244, R72). -/

namespace Sys2Proof

/-- Byte `a` lies in region `r`. -/
def Region.covers (r : Region) (a : Nat) : Bool := decide (r.base ≤ a) && decide (a < r.base + r.size)

/-- `MemAdmit(a)` (R61): the engine's bus can access byte `a` without a bus error. -/
def Config.memAdmit (c : Config) (a : Nat) : Bool := c.memMap.any (fun r => r.covers a)

/-- Byte `a` is memory with side effects on read or write (R72, U7). -/
def Config.hasSideEffect (c : Config) (a : Nat) : Bool :=
  c.memMap.any (fun r => r.covers a && decide (r.kind = .sideEffect))

end Sys2Proof

namespace Sys2Proof.Machine

/-! ## Ranges -/

/-- `Rng(sp, addr, n)`: the bytes addr .. addr+n-1 of space sp (R63). -/
structure Range where
  space : Space
  addr : Nat
  len : Nat
deriving DecidableEq, Repr

/-- A STATE range fits in S (R64). A MEM range has no such bound. -/
def Range.fitsState (r : Range) : Bool :=
  match r.space with
  | .state => decide (r.addr + r.len ≤ 48)
  | .mem => true

/-- A MEM range fits below 2^32, over unbounded integers (R64). -/
def Range.fitsMem (r : Range) : Bool :=
  match r.space with
  | .state => true
  | .mem => decide (r.addr + r.len ≤ 2 ^ 32)

/-- Two ranges overlap (R66). -/
def Range.overlaps (r q : Range) : Bool :=
  decide (r.space = q.space) && decide (0 < r.len) && decide (0 < q.len) &&
    decide (r.addr < q.addr + q.len) && decide (q.addr < r.addr + r.len)

/-- Two ranges are identical (R66). -/
def Range.identical (r q : Range) : Bool :=
  decide (r.space = q.space) && decide (r.addr = q.addr) && decide (r.len = q.len)

/-- The admitted aliasing of a destination with a source: identical or not overlapping (R67). -/
def Range.aliasOk (d q : Range) : Bool := d.identical q || !d.overlaps q

/-- The range names byte `a` of data memory. -/
def Range.coversMem (r : Range) (a : Nat) : Bool :=
  decide (r.space = .mem) && decide (r.addr ≤ a) && decide (a < r.addr + r.len)

/-- Every MEM byte of the range is admitted (R61). -/
def Range.admitted (r : Range) (c : Config) : Bool :=
  match r.space with
  | .state => true
  | .mem => (List.range r.len).all (fun i => c.memAdmit (r.addr + i))

/-- Some MEM byte of the range has side effects (R72, U7). -/
def Range.touchesSideEffect (r : Range) (c : Config) : Bool :=
  match r.space with
  | .state => false
  | .mem => (List.range r.len).any (fun i => c.hasSideEffect (r.addr + i))

/-- `Read(sp, addr, n)` (R65). -/
def State.readRange (s : State) (r : Range) : List Byte :=
  match r.space with
  | .mem => s.mem.readBytes r.addr r.len
  | .state => bytesFrom s.S r.addr r.len

/-- `Write(sp, addr, n, v)` (R65), `n` being the length of `v`. -/
def State.writeRange (s : State) (r : Range) (v : List Byte) : State :=
  match r.space with
  | .mem => s.setMem (s.mem.writeBytes r.addr v)
  | .state => s.setS (putBytes s.S r.addr v)

/-! ## The register operands of each command (R99) -/

/-- Range A of length `n` in space `sp`: Rng(sp, ADDR_A, n). -/
def State.rangeA (s : State) (sp : Space) (n : Nat) : Range := ⟨sp, s.addrA.toNat, n⟩

/-- Range B: Rng(sp, ADDR_B, n). -/
def State.rangeB (s : State) (sp : Space) (n : Nat) : Range := ⟨sp, s.addrB.toNat, n⟩

/-- Range D: Rng(sp, ADDR_D, n). -/
def State.rangeD (s : State) (sp : Space) (n : Nat) : Range := ⟨sp, s.addrD.toNat, n⟩

/-- The source ranges of a command (R99, columns A and B). -/
def sources (i : Instr) (s : State) : List Range :=
  match i with
  | .permute _ | .zero _ | .setup _ | .finalize _ | .pad _ _ => []
  | .copy asp _ | .xor asp _ => [s.rangeA asp s.len.toNat]
  | .xor2 asp bsp _ | .cmp asp bsp => [s.rangeA asp s.len.toNat, s.rangeB bsp s.len.toNat]
  | .absorb _ _ | .encstream _ _ | .decstream _ _ | .aeadEnc | .aeadDec => [s.rangeA .mem s.len.toNat]

/-- The destination range of a command (R99, column D). For AEAD_DEC with LEN < 36 the length LEN − 36 is
no length; the command then completes with LEN before the range is looked at (R242).
DEDUCED (log 16): the range is then empty. -/
def destination (i : Instr) (s : State) : Option Range :=
  match i with
  | .permute _ | .cmp _ _ | .setup _ | .finalize _ | .pad _ _ | .absorb _ _ => none
  | .zero dsp | .copy _ dsp | .xor _ dsp | .xor2 _ _ dsp => some (s.rangeD dsp s.len.toNat)
  | .encstream _ _ | .decstream _ _ => some (s.rangeD .mem s.len.toNat)
  | .aeadEnc => some (s.rangeD .mem (s.len.toNat + 36))
  | .aeadDec => some (s.rangeD .mem (s.len.toNat - 36))

/-- All ranges of a command: its sources and its destination (R99). -/
def ranges (i : Instr) (s : State) : List Range := sources i s ++ (destination i s).toList

/-! ## Validation, in the order of R242 -/

/-- The LEN check: only AEAD_DEC has one, LEN ≥ 36 (R218, R241). -/
def lengthOk (i : Instr) (s : State) : Bool :=
  match i with
  | .aeadDec => decide (36 ≤ s.len.toNat)
  | .permute _ | .zero _ | .copy _ _ | .xor _ _ | .xor2 _ _ _ | .cmp _ _ | .setup _ | .finalize _
  | .pad _ _ | .absorb _ _ | .encstream _ _ | .decstream _ _ | .aeadEnc => true

/-- Every STATE range of the command fits in S (R64). -/
def stateRangesOk (i : Instr) (s : State) : Bool := (ranges i s).all Range.fitsState

/-- Every MEM range of the command fits below 2^32 (R64). -/
def memRangesOk (i : Instr) (s : State) : Bool := (ranges i s).all Range.fitsMem

/-- The aliasing check (R67): for COPY, XOR, XOR2 and the duplex streams, D against each source; for the
AEAD commands, no overlap unless ADDR_D = ADDR_A; ZERO, CMP and ABSORB have none. -/
def aliasingOk (i : Instr) (s : State) : Bool :=
  match i with
  | .copy _ _ | .xor _ _ | .xor2 _ _ _ | .encstream _ _ | .decstream _ _ =>
    (destination i s).all (fun d => (sources i s).all (fun q => d.aliasOk q))
  | .aeadEnc | .aeadDec =>
    decide (s.addrD = s.addrA) || (destination i s).all (fun d => (sources i s).all (fun q => !d.overlaps q))
  | .permute _ | .zero _ | .cmp _ _ | .setup _ | .finalize _ | .pad _ _ | .absorb _ _ => true

/-- The first validation error of a decoded command, in the order LEN, STATE_RANGE, WRAP, ALIAS (R242). -/
def validationError (i : Instr) (s : State) : Option Code :=
  if !lengthOk i s then some .len
  else if !stateRangesOk i s then some .stateRange
  else if !memRangesOk i s then some .wrap
  else if !aliasingOk i s then some .aliasing
  else none

/-- Every MEM byte of the command's ranges is admitted (R61). -/
def busOk (i : Instr) (s : State) : Bool := (ranges i s).all (fun r => r.admitted s.cfg)

/-- No MEM byte of the command's ranges has side effects (R72). -/
def memIdempotent (i : Instr) (s : State) : Bool :=
  (ranges i s).all (fun r => !r.touchesSideEffect s.cfg)

/-! ## What a command leaves unspecified (R244, R72) -/

/-- Every byte of S takes a free value. -/
def State.spoilS (s : State) : State :=
  (s.setS (Vector.ofFn (fun i => Config.freeByte (s.draws + i.val)))).countDraws 48

/-- CMP_ACC takes a free value. -/
def State.spoilCmpAcc (s : State) : State :=
  (s.setCmpAcc (le32 (Config.freeByte s.draws) (Config.freeByte (s.draws + 1))
    (Config.freeByte (s.draws + 2)) (Config.freeByte (s.draws + 3)))).countDraws 4

/-- Every byte of a destination takes a free value. A destination in STATE is written in S, and then all
of S is unspecified (R244, "S is unspecified if the command writes S"). DEDUCED (log 10). -/
def State.spoilRange (s : State) (r : Range) : State :=
  match r.space with
  | .mem => (s.setMem (s.mem.writeBytes r.addr (freeBytes s.draws r.len))).countDraws r.len
  | .state => s.spoilS

/-- The unspecified effects of a command whose ranges hold an inadmissible byte (R244, U1) or memory with
side effects (R72, U7): its destination bytes, S if it writes S, CMP_ACC for CMP. The four commands
without a range never come here. DEDUCED (log 11): U7's "that command's destination bytes, S and CMP_ACC"
are those of the three that the command writes. -/
def spoil (i : Instr) (s : State) : State :=
  match i with
  | .permute _ | .setup _ | .finalize _ | .pad _ _ => s.spoilS
  | .zero dsp | .copy _ dsp | .xor _ dsp | .xor2 _ _ dsp => s.spoilRange (s.rangeD dsp s.len.toNat)
  | .cmp _ _ => s.spoilCmpAcc
  | .absorb _ _ => s.spoilS
  | .encstream _ _ | .decstream _ _ => (s.spoilRange (s.rangeD .mem s.len.toNat)).spoilS
  | .aeadEnc => (s.spoilRange (s.rangeD .mem (s.len.toNat + 36))).spoilS
  | .aeadDec => (s.spoilRange (s.rangeD .mem (s.len.toNat - 36))).spoilS

/-- Completion with BUS (R244). AEAD_ENC and AEAD_DEC "still leave S = 0^48" (U1). -/
def completeBus (i : Instr) (s : State) : State :=
  match i with
  | .aeadEnc | .aeadDec => (s.setS zeroState).complete .bus
  | .permute _ | .zero _ | .copy _ _ | .xor _ _ | .xor2 _ _ _ | .cmp _ _ | .setup _ | .finalize _
  | .pad _ _ | .absorb _ _ | .encstream _ _ | .decstream _ _ => s.complete .bus

/-- Completion of a command that ran over memory with side effects (U7). Its S stays free, for the AEAD
commands too: U7 makes no exception for them, as U1 does (log 11). AEAD_DEC's tag check is computed
from unspecified bytes, so its outcome is a free choice between OK and AUTH; every other command
completes with OK. DEDUCED (log 11). -/
def completeSpoiled (i : Instr) (s : State) : State :=
  match i with
  | .aeadDec => (s.countDraws 1).complete (if Config.freeByte s.draws = 0 then .ok else .auth)
  | .permute _ | .zero _ | .copy _ _ | .xor _ _ | .xor2 _ _ _ | .cmp _ _ | .setup _ | .finalize _
  | .pad _ _ | .absorb _ _ | .encstream _ _ | .decstream _ _ | .aeadEnc => s.complete .ok

/-- Perform of a decoded command (R98, R140, R242): its validation checks, then the bus check, then its
own effect, which completes it. A validation error changes nothing but STATUS (R243); DEDUCED for the AEAD
commands, whose S is then not zeroed (log 9). -/
def runCommand (i : Instr) (effect : State → State) (s : State) : State :=
  match validationError i s with
  | some e => s.complete e
  | none =>
    if !busOk i s then completeBus i (spoil i s)
    else if !memIdempotent i s then completeSpoiled i (spoil i s)
    else effect s

/-! ## Host races (R78) -/

/-- A host write of data-memory byte `a` breaks R78 for a running command `i`: the byte is in a source or
in the destination range. -/
def writeRaces (i : Instr) (s : State) (a : Nat) : Bool := (ranges i s).any (fun r => r.coversMem a)

/-- The ranges whose bytes the host must not even read while command `i` runs (R78): the destination, and
the in-place ciphertext range of an AEAD command. -/
def noReadRanges (i : Instr) (s : State) : List Range :=
  match i with
  | .aeadEnc | .aeadDec =>
    (destination i s).toList ++ (if s.addrD = s.addrA then sources i s else [])
  | .permute _ | .zero _ | .copy _ _ | .xor _ _ | .xor2 _ _ _ | .cmp _ _ | .setup _ | .finalize _
  | .pad _ _ | .absorb _ _ | .encstream _ _ | .decstream _ _ => (destination i s).toList

/-- A host read of data-memory byte `a` breaks R78 for a running command `i`. -/
def readRaces (i : Instr) (s : State) (a : Nat) : Bool := (noReadRanges i s).any (fun r => r.coversMem a)

end Sys2Proof.Machine
end

