-- ==== Sys2Proof/Machine/BufferAlgebra.lean ====
section
/-! DEFINITION. The state buffer algebra (41_buffer_algebra.md R140 to R146): ZERO, COPY, XOR, XOR2 and
CMP over ranges of data memory or of S. -/

namespace Sys2Proof.Machine

/-- The bytes from index `i` on of the comparison, with the accumulator so far (R145). -/
def ctCmpFrom (i : Nat) (acc : Word) (a b : List Byte) : Word :=
  match a, b with
  | x :: xs, y :: ys => ctCmpFrom (i + 1) (acc ||| ((x ^^^ y).zeroExtend 32 <<< (8 * (i % 4)))) xs ys
  | _, _ => acc

/-- `CtCmp(a, b, n)` (R145), for two sequences of the same length n: every byte is processed and byte i
goes to lane i mod 4. -/
def ctCmp (a b : List Byte) : Word := ctCmpFrom 0 0 a b

/-- ZERO (R141): `Write(dsp, x[ADDR_D], x[LEN], 0^LEN)`. -/
def execZero (dsp : Space) (s : State) : Host.Outcome State Fault Refusal :=
  .next (runCommand (.zero dsp) (fun s =>
    (s.writeRange (s.rangeD dsp s.len.toNat) (zeros s.len.toNat)).complete .ok) s)

/-- COPY (R142): D receives the bytes of A, read before D is written. -/
def execCopy (asp dsp : Space) (s : State) : Host.Outcome State Fault Refusal :=
  .next (runCommand (.copy asp dsp) (fun s =>
    (s.writeRange (s.rangeD dsp s.len.toNat) (s.readRange (s.rangeA asp s.len.toNat))).complete .ok) s)

/-- XOR (R143): D receives `a[i] ^ d[i]`. -/
def execXor (asp dsp : Space) (s : State) : Host.Outcome State Fault Refusal :=
  .next (runCommand (.xor asp dsp) (fun s =>
    let a := s.readRange (s.rangeA asp s.len.toNat)
    let d := s.readRange (s.rangeD dsp s.len.toNat)
    (s.writeRange (s.rangeD dsp s.len.toNat) (xorBytes a d)).complete .ok) s)

/-- XOR2 (R144): D receives `a[i] ^ b[i]`. -/
def execXor2 (asp bsp dsp : Space) (s : State) : Host.Outcome State Fault Refusal :=
  .next (runCommand (.xor2 asp bsp dsp) (fun s =>
    let a := s.readRange (s.rangeA asp s.len.toNat)
    let b := s.readRange (s.rangeB bsp s.len.toNat)
    (s.writeRange (s.rangeD dsp s.len.toNat) (xorBytes a b)).complete .ok) s)

/-- CMP (R145): CMP_ACC receives CtCmp of the two ranges. -/
def execCmp (asp bsp : Space) (s : State) : Host.Outcome State Fault Refusal :=
  .next (runCommand (.cmp asp bsp) (fun s =>
    let a := s.readRange (s.rangeA asp s.len.toNat)
    let b := s.readRange (s.rangeB bsp s.len.toNat)
    (s.setCmpAcc (ctCmp a b)).complete .ok) s)

end Sys2Proof.Machine
end

