-- ==== Sys2Proof/Machine/Permutation.lean ====
section
/-! DEFINITION. The permutation engine (40_permutation.md R120 to R126) and the command PERMUTE. -/

namespace Sys2Proof.Machine

/-- `rotl32(v, n)` for 0 < n < 32 (00_scope.md R10). -/
def rotl32 (v : Word) (n : Nat) : Word := (v <<< n) ||| (v >>> (32 - n))

/-- Column `c` of the grid: words c, 4+c and 8+c (R20). -/
structure Column where
  /-- `w[c]`, row 0. -/
  top : Word
  /-- `w[4+c]`, row 1. -/
  mid : Word
  /-- `w[8+c]`, row 2. -/
  bot : Word
deriving DecidableEq, Repr

/-- S as a grid of 3 rows and 4 columns of words (R20). -/
structure Grid where
  c0 : Column
  c1 : Column
  c2 : Column
  c3 : Column
deriving DecidableEq, Repr

/-- The column step of one column (R120): all three words are read before any is written. -/
def columnStep (w : Column) : Column :=
  let x := rotl32 w.top 24
  let y := rotl32 w.mid 9
  let z := w.bot
  { bot := x ^^^ (z <<< 1) ^^^ ((y &&& z) <<< 2)
    mid := y ^^^ x ^^^ ((x ||| z) <<< 1)
    top := z ^^^ y ^^^ ((x &&& y) <<< 3) }

/-- The column step of all four columns; they are independent lanes (R120, R124). -/
def columnSteps (g : Grid) : Grid := ⟨columnStep g.c0, columnStep g.c1, columnStep g.c2, columnStep g.c3⟩

/-- Replaces row 0, the words `w[0]` to `w[3]`. -/
def Grid.setRow0 (g : Grid) (w0 w1 w2 w3 : Word) : Grid :=
  ⟨{ g.c0 with top := w0 }, { g.c1 with top := w1 }, { g.c2 with top := w2 }, { g.c3 with top := w3 }⟩

/-- The round-end transform of round `round` (R121): small swap and then the constant, big swap, or
nothing, by `round & 3`. -/
def roundEnd (round : Nat) (g : Grid) : Grid :=
  if round % 4 = 0 then
    g.setRow0 (g.c1.top ^^^ (0x9e377900 ||| BitVec.ofNat 32 round)) g.c0.top g.c3.top g.c2.top
  else if round % 4 = 2 then g.setRow0 g.c2.top g.c3.top g.c0.top g.c1.top
  else g

/-- Rounds `round` down to 1 (R122). -/
def rounds (round : Nat) (g : Grid) : Grid :=
  match round with
  | 0 => g
  | r + 1 => rounds r (roundEnd (r + 1) (columnSteps g))

/-- `Core`: 24 rounds, counting down from 24 to 1 (R122). -/
def core (g : Grid) : Grid := rounds 24 g

/-- The word view of S: word j is `W(S, j)` (R20, R123). -/
def Grid.ofBytes (v : Bytes 48) : Grid :=
  ⟨⟨wordAt v 0, wordAt v 4, wordAt v 8⟩, ⟨wordAt v 1, wordAt v 5, wordAt v 9⟩,
   ⟨wordAt v 2, wordAt v 6, wordAt v 10⟩, ⟨wordAt v 3, wordAt v 7, wordAt v 11⟩⟩

/-- Word `j` of the grid, 0 to 11: row r holds words 4r to 4r+3 (R20). -/
def Grid.word (g : Grid) (j : Nat) : Word :=
  match j with
  | 0 => g.c0.top
  | 1 => g.c1.top
  | 2 => g.c2.top
  | 3 => g.c3.top
  | 4 => g.c0.mid
  | 5 => g.c1.mid
  | 6 => g.c2.mid
  | 7 => g.c3.mid
  | 8 => g.c0.bot
  | 9 => g.c1.bot
  | 10 => g.c2.bot
  | _ => g.c3.bot

/-- `fromWords`: the twelve words back as 48 bytes in the same byte order (R11, R123). -/
def Grid.toBytes (g : Grid) : Bytes 48 := Vector.ofFn (fun i => wordByte (g.word (i.val / 4)) (i.val % 4))

/-- `Perm(S, tag)` (R123): the tag is XORed into S[47], then Core runs on the words of S. -/
def perm (v : Bytes 48) (tag : Byte) : Bytes 48 := (core (Grid.ofBytes (xorInto v 47 [tag]))).toBytes

/-- PERMUTE (R125): `S <- Perm(S, tag)`. It has no range, so nothing is validated. -/
def execPermute (tag : Byte) (s : State) : Host.Outcome State Fault Refusal :=
  .next ((s.setS (perm s.S tag)).complete .ok)

end Sys2Proof.Machine
end

