-- ==== Sys2Proof/Machine/Sponge.lean ====
section
/-! DEFINITION. The sponge sequencer (42_sponge.md R170 to R181): the functions Setup, Finalize, Pad,
Absorb, EncStream and DecStream, and the six commands that expose them. -/

namespace Sys2Proof.Machine

/-! ## Setup, Finalize, Pad -/

/-- `Setup(key, ctx, iv, mid, kt)` (R170), with the constants of the configuration. The sequences hold
32, 8 and 20 bytes. -/
def setup (c : Config) (key ctx iv : List Byte) (mid : BitVec 64) (kt : Byte) : Bytes 48 :=
  let s1 := perm (putBytes (putBytes zeroState 0 c.domainPrefix.toList) 8 ctx) c.tagHeader
  let s2 := perm (xorInto s1 0 (key.take 16)) kt
  let s3 := perm (xorInto s2 0 ((key.drop 16).take 16)) kt
  let s4 := perm (xorInto (xorInto s3 0 [20]) 1 (iv.take 15)) c.tagHeader
  let s5 := xorInto s4 0 ((iv.drop 15).take 5)
  perm (xorInto s5 5 (le64 mid)) c.tagHeader

/-- One application of Finalize's step: the key into the capacity, then Perm (R172). -/
def finalizeOnce (v : Bytes 48) (key : List Byte) (ft : Byte) : Bytes 48 := perm (xorInto v 16 key) ft

/-- `Finalize(S, key, ft)` (R172): two applications. -/
def finalize (v : Bytes 48) (key : List Byte) (ft : Byte) : Bytes 48 :=
  finalizeOnce (finalizeOnce v key ft) key ft

/-- `((dom << 1) | 1) mod 256` (R92, R174). -/
def padByte (dom : BitVec 7) : Byte := (dom.zeroExtend 8 <<< 1) ||| 1

/-- `Pad(S, pos, dom)` (R174). -/
def pad (v : Bytes 48) (pos : Nat) (dom : BitVec 7) : Bytes 48 :=
  xorInto (xorInto v pos [padByte dom]) 15 [0x80]

/-! ## The three data streams -/

/-- `Absorb` with `q` full blocks still to come; then the partial block, Pad and the last Perm, for every
length (R176, 90_conflicts.md C1). -/
def absorbBlocks (tag : Byte) (dom : BitVec 7) (q : Nat) (v : Bytes 48) (m : List Byte) : Bytes 48 :=
  match q with
  | 0 => perm (pad (xorInto v 0 m) m.length dom) tag
  | q + 1 => absorbBlocks tag dom q (perm (xorInto v 0 (m.take 16)) tag) (m.drop 16)

/-- `Absorb(S, m, tag, dom)` (R176). -/
def absorb (v : Bytes 48) (m : List Byte) (tag : Byte) (dom : BitVec 7) : Bytes 48 :=
  absorbBlocks tag dom (m.length / 16) v m

/-- `EncStream` with `q` full blocks still to come: each ciphertext block goes to the output and back
into the rate (R178). -/
def encBlocks (tag : Byte) (dom : BitVec 7) (q : Nat) (v : Bytes 48) (m : List Byte) :
    Bytes 48 × List Byte :=
  match q with
  | 0 =>
    let c := xorBytes m (bytesFrom v 0 m.length)
    (perm (pad (putBytes v 0 c) m.length dom) tag, c)
  | q + 1 =>
    let c := xorBytes (m.take 16) (bytesFrom v 0 16)
    let r := encBlocks tag dom q (perm (putBytes v 0 c) tag) (m.drop 16)
    (r.1, c ++ r.2)

/-- `EncStream(S, m, tag, dom)` (R178). -/
def encStream (v : Bytes 48) (m : List Byte) (tag : Byte) (dom : BitVec 7) : Bytes 48 × List Byte :=
  encBlocks tag dom (m.length / 16) v m

/-- `DecStream` with `q` full blocks still to come: the ciphertext block, not the plaintext, goes back
into the rate (R180). -/
def decBlocks (tag : Byte) (dom : BitVec 7) (q : Nat) (v : Bytes 48) (c : List Byte) :
    Bytes 48 × List Byte :=
  match q with
  | 0 => (perm (pad (putBytes v 0 c) c.length dom) tag, xorBytes c (bytesFrom v 0 c.length))
  | q + 1 =>
    let m := xorBytes (c.take 16) (bytesFrom v 0 16)
    let r := decBlocks tag dom q (perm (putBytes v 0 (c.take 16)) tag) (c.drop 16)
    (r.1, m ++ r.2)

/-- `DecStream(S, c, tag, dom)` (R180). -/
def decStream (v : Bytes 48) (c : List Byte) (tag : Byte) (dom : BitVec 7) : Bytes 48 × List Byte :=
  decBlocks tag dom (c.length / 16) v c

/-! ## The commands -/

/-- SETUP (R171): `S <- Setup(KEY, CTX, IV, x[MSGID], kt)`. -/
def execSetup (tag : Byte) (s : State) : Host.Outcome State Fault Refusal :=
  .next ((s.setS (setup s.cfg s.key.toList s.ctx.toList s.iv.toList s.msgid tag)).complete .ok)

/-- FINALIZE (R173): `S <- Finalize(S, KEY, ft)`. -/
def execFinalize (tag : Byte) (s : State) : Host.Outcome State Fault Refusal :=
  .next ((s.setS (finalize s.S s.key.toList tag)).complete .ok)

/-- PAD (R175): `S <- Pad(S, pos, dom)`. -/
def execPad (pos : Nat) (dom : BitVec 7) (s : State) : Host.Outcome State Fault Refusal :=
  .next ((s.setS (pad s.S pos dom)).complete .ok)

/-- ABSORB (R177): `S <- Absorb(S, MemRead(x[ADDR_A], x[LEN]), tag, dom)`. -/
def execAbsorb (tag : Byte) (dom : BitVec 7) (s : State) : Host.Outcome State Fault Refusal :=
  .next (runCommand (.absorb tag dom) (fun s =>
    (s.setS (absorb s.S (s.readRange (s.rangeA .mem s.len.toNat)) tag dom)).complete .ok) s)

/-- ENCSTREAM (R179): S and the ciphertext at D. -/
def execEncstream (tag : Byte) (dom : BitVec 7) (s : State) : Host.Outcome State Fault Refusal :=
  .next (runCommand (.encstream tag dom) (fun s =>
    let r := encStream s.S (s.readRange (s.rangeA .mem s.len.toNat)) tag dom
    ((s.setS r.1).writeRange (s.rangeD .mem s.len.toNat) r.2).complete .ok) s)

/-- DECSTREAM (R181): S and the plaintext at D. -/
def execDecstream (tag : Byte) (dom : BitVec 7) (s : State) : Host.Outcome State Fault Refusal :=
  .next (runCommand (.decstream tag dom) (fun s =>
    let r := decStream s.S (s.readRange (s.rangeA .mem s.len.toNat)) tag dom
    ((s.setS r.1).writeRange (s.rangeD .mem s.len.toNat) r.2).complete .ok) s)

end Sys2Proof.Machine
end

