-- ==== Sys2Proof/Machine/Aead.lean ====
section
/-! DEFINITION. The AEAD duplex controller (43_aead.md R210 to R222): AEAD_ENC and AEAD_DEC. -/

namespace Sys2Proof.Machine

/-- Pass 1 of encryption: the synthetic IV, S[16..36) after Finalize (R212, R213). -/
def deriveSiv (c : Config) (key ctx iv : List Byte) (mid : BitVec 64) (m : List Byte) : List Byte :=
  let s1 := setup c key ctx iv mid c.tagKey0
  let s2 := absorb s1 m c.tagPayload c.domXof
  bytesFrom (finalize s2 key c.tagFinal0) 16 20

/-- The authentication tag, S[16..32) after Finalize of a pass-2 or decrypt stream (R212, R214, R217). -/
def streamTag (c : Config) (key : List Byte) (v : Bytes 48) : List Byte :=
  bytesFrom (finalize v key c.tagFinal) 16 16

/-- `AeadEnc(key, ctx, iv, mid, m)` (R212): SIV ‖ TAG ‖ BODY (R210). -/
def aeadEncrypt (c : Config) (key ctx iv : List Byte) (mid : BitVec 64) (m : List Byte) : List Byte :=
  let siv := deriveSiv c key ctx iv mid m
  let r := encStream (setup c key ctx siv mid c.tagKey) m c.tagPayload c.domAead
  siv ++ streamTag c key r.1 ++ r.2

/-- `AeadDec(key, ctx, mid, c)` (R217) of a ciphertext of at least 36 bytes: OK and the plaintext, or AUTH
and zeros. -/
def aeadDecrypt (c : Config) (key ctx : List Byte) (mid : BitVec 64) (ct : List Byte) : Code × List Byte :=
  let siv := ct.take 20
  let tag := (ct.drop 20).take 16
  let body := ct.drop 36
  let r := decStream (setup c key ctx siv mid c.tagKey) body c.tagPayload c.domAead
  if ctCmp (streamTag c key r.1) tag = 0 then (.ok, r.2) else (.auth, zeros body.length)

/-- AEAD_ENC (R215): the ciphertext of A's message at D; S is zeroed. -/
def execAeadEnc (s : State) : Host.Outcome State Fault Refusal :=
  .next (runCommand .aeadEnc (fun s =>
    let m := s.readRange (s.rangeA .mem s.len.toNat)
    let c := aeadEncrypt s.cfg s.key.toList s.ctx.toList s.iv.toList s.msgid m
    ((s.writeRange (s.rangeD .mem (s.len.toNat + 36)) c).setS zeroState).complete .ok) s)

/-- AEAD_DEC (R218): the plaintext of A's ciphertext at D, or zeros if the tag does not match; S is
zeroed; CMP_ACC is not written (R219). -/
def execAeadDec (s : State) : Host.Outcome State Fault Refusal :=
  .next (runCommand .aeadDec (fun s =>
    let c := s.readRange (s.rangeA .mem s.len.toNat)
    let r := aeadDecrypt s.cfg s.key.toList s.ctx.toList s.msgid c
    ((s.writeRange (s.rangeD .mem (s.len.toNat - 36)) r.2).setS zeroState).complete r.1) s)

end Sys2Proof.Machine
end

