-- ==== Sys2Proof/Machine/Dispatch.lean ====
section
/-! DEFINITION. One arm per command: the perform of a decoded command (30_encoding.md R98). -/

namespace Sys2Proof.Machine

def exec (i : Instr) (s : State) : Host.Outcome State Fault Refusal :=
  match i with
  | .permute tag => Sys2Proof.Machine.execPermute tag s
  | .zero dsp => Sys2Proof.Machine.execZero dsp s
  | .copy asp dsp => Sys2Proof.Machine.execCopy asp dsp s
  | .xor asp dsp => Sys2Proof.Machine.execXor asp dsp s
  | .xor2 asp bsp dsp => Sys2Proof.Machine.execXor2 asp bsp dsp s
  | .cmp asp bsp => Sys2Proof.Machine.execCmp asp bsp s
  | .setup tag => Sys2Proof.Machine.execSetup tag s
  | .finalize tag => Sys2Proof.Machine.execFinalize tag s
  | .pad pos dom => Sys2Proof.Machine.execPad pos dom s
  | .absorb tag dom => Sys2Proof.Machine.execAbsorb tag dom s
  | .encstream tag dom => Sys2Proof.Machine.execEncstream tag dom s
  | .decstream tag dom => Sys2Proof.Machine.execDecstream tag dom s
  | .aeadEnc => Sys2Proof.Machine.execAeadEnc s
  | .aeadDec => Sys2Proof.Machine.execAeadDec s

end Sys2Proof.Machine
end

