-- ==== Sys2Proof/Machine/Registers.lean ====
section
/-! DEFINITION. The register block as the host sees it (10_state.md R23 to R37; 60_exceptions.md R247,
R248): which register an offset names, what a read returns and what a write does. -/

namespace Sys2Proof.Machine

/-- The registers of the 256-byte block (R23). -/
inductive Reg where
  | ctrl
  | status
  | cmd
  | len
  | addrA
  | addrB
  | addrD
  | cmpAcc
  | msgidLo
  | msgidHi
  /-- CTX_k, k = 0, 1. -/
  | ctx (k : Nat)
  /-- IV_k, k = 0 to 4. -/
  | iv (k : Nat)
  /-- KEY_k, k = 0 to 7. -/
  | key (k : Nat)
  /-- STATE_k, k = 0 to 11. -/
  | state (k : Nat)
  /-- Every other offset: reads as zero, ignores writes (R35). -/
  | reserved
deriving DecidableEq, Repr

/-- The register at a word-aligned offset of the block (R23). -/
def Reg.ofOffset (off : Nat) : Reg :=
  if off = 0x000 then .ctrl
  else if off = 0x004 then .status
  else if off = 0x008 then .cmd
  else if off = 0x00C then .len
  else if off = 0x010 then .addrA
  else if off = 0x014 then .addrB
  else if off = 0x018 then .addrD
  else if off = 0x01C then .cmpAcc
  else if off = 0x020 then .msgidLo
  else if off = 0x024 then .msgidHi
  else if 0x028 ≤ off ∧ off < 0x030 then .ctx ((off - 0x028) / 4)
  else if 0x030 ≤ off ∧ off < 0x044 then .iv ((off - 0x030) / 4)
  else if 0x080 ≤ off ∧ off < 0x0A0 then .key ((off - 0x080) / 4)
  else if 0x0C0 ≤ off ∧ off < 0x0F0 then .state ((off - 0x0C0) / 4)
  else .reserved

/-- What a host read of a register returns. KEY and CMD read 0 (R26, R33), the STATE window reads 0 while
BUSY (R37), reserved offsets read 0 (R35). No read has a side effect (R72). -/
def readReg (s : State) (r : Reg) : Word :=
  match r with
  | .ctrl => s.ctrlWord
  | .status => s.statusWord
  | .cmd => 0
  | .len => s.len
  | .addrA => s.addrA
  | .addrB => s.addrB
  | .addrD => s.addrD
  | .cmpAcc => s.cmpAcc
  | .msgidLo => s.msgid.extractLsb' 0 32
  | .msgidHi => s.msgid.extractLsb' 32 32
  | .ctx k => wordAt s.ctx k
  | .iv k => wordAt s.iv k
  | .key _ => 0
  | .state k => if s.busy then 0 else wordAt s.S k
  | .reserved => 0

/-- A write to CMD (R26): issue while BUSY = 0 (R247); while BUSY = 1 the word is dropped and OVR is
set (R248). -/
def State.cmdWrite (s : State) (w : Word) : State := if s.busy then { s with ovr := true } else s.issue w

/-- A write that is ignored while BUSY = 1 (R36). -/
def State.unlessBusy (s t : State) : State := if s.busy then s else t

/-- What a host write of `v` to a register does. Every write but those to STATUS, CTRL.IE and CMD is
ignored while BUSY (R36). -/
def writeReg (s : State) (r : Reg) (v : Word) : State :=
  match r with
  | .ctrl => s.ctrlWrite v
  | .status => s.statusWrite v
  | .cmd => s.cmdWrite v
  | .len => s.unlessBusy { s with len := v }
  | .addrA => s.unlessBusy { s with addrA := v }
  | .addrB => s.unlessBusy { s with addrB := v }
  | .addrD => s.unlessBusy { s with addrD := v }
  | .cmpAcc => s
  | .msgidLo => s.unlessBusy { s with msgid := s.msgid.extractLsb' 32 32 ++ v }
  | .msgidHi => s.unlessBusy { s with msgid := v ++ s.msgid.extractLsb' 0 32 }
  | .ctx k => s.unlessBusy { s with ctx := putWord s.ctx k v }
  | .iv k => s.unlessBusy { s with iv := putWord s.iv k v }
  | .key k => s.unlessBusy { s with key := putWord s.key k v }
  | .state k => s.unlessBusy { s with S := putWord s.S k v }
  | .reserved => s

end Sys2Proof.Machine
end

