-- ==== Sys2Proof/Machine/HostAgent.lean ====
section
/-! DEFINITION. The outside world's actions on the machine: the host's register accesses
(20_memory.md R71) and data-memory accesses (R60, R78), and the reset input
(70_reset_and_hazards.md R270 to R272). -/

namespace Sys2Proof.Machine

/-- The offset in the register block of a bus address; `none` outside the block at REG_BASE (R23, R73). -/
def regOffset (c : Config) (a : Word) : Option Nat :=
  if c.regBase.toNat ≤ a.toNat ∧ a.toNat < c.regBase.toNat + 256 then some (a.toNat - c.regBase.toNat) else none

/-- The register a host access names. An access that is not an aligned 32-bit access is refused (R71);
one outside the block is no access to this device (R73; DESIGN CHOICE, log 13). -/
def accessedReg (c : Config) (a : Word) (width : Nat) : Except Refusal Reg :=
  match regOffset c a with
  | none => .error (.outsideRegisterBlock a)
  | some off => if width = 4 ∧ off % 4 = 0 then .ok (Reg.ofOffset off) else .error (.registerAccess off width)

/-- A host register write (R71). -/
def hostRegWrite (a : Word) (width : Nat) (v : Word) (s : State) : Host.Outcome State Fault Refusal :=
  match accessedReg s.cfg a width with
  | .ok r => .next (writeReg s r v)
  | .error e => .refused e

/-- A host register read (R71): the host receives the value, and nothing else changes (R72). -/
def hostRegRead (a : Word) (width : Nat) (s : State) : Host.Outcome State Fault Refusal :=
  match accessedReg s.cfg a width with
  | .ok r => .next { s with hostWord := readReg s r }
  | .error e => .refused e

/-- The command being performed: the decoded CMDL while BUSY = 1. An illegal word has no ranges.
DEDUCED (log 14): a command that will fail its validation is one of them. -/
def runningCommand (s : State) : Option Instr :=
  if s.busy then
    match decode s.cmdl with
    | .ok i => some i
    | .error _ => none
  else none

/-- A host write of a data-memory byte. It faults if it breaks R78. -/
def hostMemWrite (a : Word) (v : Byte) (s : State) : Host.Outcome State Fault Refusal :=
  if (runningCommand s).any (fun i => writeRaces i s a.toNat) then .fault (.hostRace a)
  else .next (s.setMem (s.mem.set a.toNat v))

/-- A host read of a data-memory byte. It faults if it breaks R78. -/
def hostMemRead (a : Word) (s : State) : Host.Outcome State Fault Refusal :=
  if (runningCommand s).any (fun i => readRaces i s a.toNat) then .fault (.hostRace a)
  else .next { s with hostByte := s.mem.read a.toNat }

/-- The MEM destination range of the running command, cut at the top of the data memory (R271). -/
def abandonedRange (s : State) : Option Range :=
  match runningCommand s with
  | none => none
  | some i => (destination i s).bind (fun r =>
      match r.space with
      | .mem => some { r with len := min r.len (2 ^ 32 - r.addr) }
      | .state => none)

/-- Reset (R270 to R272): every piece of engine state takes its value of R41; data memory stays, but for
the destination bytes of an abandoned command, which are unspecified (R271, U2). The model's own
fields stay. DEDUCED (log 15). -/
def platformReset (s : State) : State :=
  let spoiled := match abandonedRange s with
    | none => s
    | some r => s.spoilRange r
  { State.reset with
    mem := spoiled.mem
    cfg := s.cfg
    pending := s.pending
    hostWord := s.hostWord
    hostByte := s.hostByte
    draws := spoiled.draws }

/-- An illegal command word completes with ILLEGAL and changes nothing else (R95, R243). -/
def completeIllegal (s : State) : Host.Outcome State Fault Refusal := .next (s.complete .illegal)

/-- With BUSY = 0 the engine is idle and keeps all state (R256). -/
def idle (s : State) : Host.Outcome State Fault Refusal := .next s

end Sys2Proof.Machine
end

