-- ==== Sys2Proof/Machine/Step.lean ====
section
/-! DEFINITION. One step of the machine. Two agents act, the host and the engine (60_exceptions.md R246,
R250), and the field `pending` says who acts next (log 6). -/

namespace Sys2Proof.Machine

/-- The engine's perform, one atomic step from decode to completion (R98, R246). -/
def perform (s : State) : Host.Outcome State Fault Refusal :=
  match decode s.cmdl with
  | .ok i => exec i s
  | .error _ => completeIllegal s

/-- The engine's turn: it performs while BUSY = 1 and is idle otherwise (R246, R256). -/
def engineTurn (s : State) : Host.Outcome State Fault Refusal := if s.busy then perform s else idle s

/-- One input, on the state it has been taken out of. -/
def runInput (e : Input) (s : State) : Host.Outcome State Fault Refusal :=
  match e with
  | .engine => engineTurn s
  | .regWrite a width v => hostRegWrite a width v s
  | .regRead a width => hostRegRead a width s
  | .memWrite a v => hostMemWrite a v s
  | .memRead a => hostMemRead a s
  | .reset => .next (platformReset s)

/-- One step: the next input, or the engine's turn when none is pending. -/
def step (s : State) : Host.Outcome State Fault Refusal :=
  match s.pending with
  | [] => engineTurn s
  | e :: rest => runInput e (s.setPending rest)

/-- The state in which the command word has just been issued (R247) and the engine's turn is next. The
engine fetches nothing (R39, R77): a command comes to run only by a host write to CMD, for which this
stands (log 8). -/
def State.withFetchWord (s : State) (nbits w : Nat) : State :=
  (s.issue (tableWord nbits w)).setPending (.engine :: s.pending)

end Sys2Proof.Machine
end

