-- ==== Sys2Proof/Safety.lean ====
section
/-! DEFINITION. What a legal state and a safe step are, and the words the claims are stated in. -/

namespace Sys2Proof.Machine

/-! ## Legal states and safe steps -/

/-- The invariant of the machine: memory is in its canonical form, the parameters meet the spec's
constraints (00_scope.md R8, 20_memory.md R60) and the model's own on REG_BASE (log 22), and a running command has neither DONE nor an ERRCODE set, because
issue clears both and only completion sets them (60_exceptions.md R246, R247). -/
def MachineInv (s : State) : Prop :=
  s.mem.wf = true ∧ s.cfg.wellFormed = true ∧ (s.busy = true → s.done = false ∧ s.errcode = .ok)

/-- A step that does not stop: no host race (R78) and no refused register access (R71). -/
def SafeStep (s : State) : Prop := ∃ t, step s = .next t

/-- The two states differ at most in KEY (R33). -/
def SameButKey (s t : State) : Prop := ∃ k : Bytes 32, t = { s with key := k }

/-! ## Ranges and the conditions of a normal run -/

/-- Byte `a` of a space (R63): of the data memory, or of S. -/
def byteIn (s : State) (sp : Space) (a : Nat) : Byte :=
  match sp with
  | .mem => s.mem.read a
  | .state => byteAt s.S a

/-- Byte `a` of space `sp` is one of the range's bytes (R63). -/
def InRange (r : Range) (sp : Space) (a : Nat) : Prop := r.space = sp ∧ r.addr ≤ a ∧ a < r.addr + r.len

/-- The range does not leave its space (R64). -/
def Fits (r : Range) : Prop :=
  match r.space with
  | .mem => r.addr + r.len ≤ 2 ^ 32
  | .state => r.addr + r.len ≤ 48

/-- Every data-memory byte of the range can be accessed without a bus error (R61). -/
def Admitted (c : Config) (r : Range) : Prop := ∀ a, InRange r .mem a → c.memAdmit a = true

/-- No data-memory byte of the range has side effects on read or write (R72). -/
def Idempotent (c : Config) (r : Range) : Prop := ∀ a, InRange r .mem a → c.hasSideEffect a = false

/-- The two ranges overlap (R66). -/
def Overlap (r q : Range) : Prop :=
  r.space = q.space ∧ 0 < r.len ∧ 0 < q.len ∧ r.addr < q.addr + q.len ∧ q.addr < r.addr + r.len

/-- The command is one of the two AEAD commands. -/
def IsAead (i : Instr) : Prop := i = .aeadEnc ∨ i = .aeadDec

/-- The aliasing that R67 admits of a command's destination with its sources: identical or disjoint, and
for the AEAD commands disjoint or ADDR_D = ADDR_A. -/
def AliasAdmitted (i : Instr) (s : State) : Prop :=
  ∀ d, destination i s = some d → ∀ q ∈ sources i s,
    ¬ Overlap d q ∨ (¬ IsAead i ∧ d = q) ∨ (IsAead i ∧ s.addrD = s.addrA)

/-- The command meets no error before its effect (R242): LEN, ranges, aliasing and admissibility are in
order, and its memory is idempotent as the engine assumes (R72). -/
def RunsNormally (i : Instr) (s : State) : Prop :=
  (i = .aeadDec → 36 ≤ s.len.toNat) ∧
  (∀ r ∈ ranges i s, Fits r ∧ Admitted s.cfg r ∧ Idempotent s.cfg r) ∧
  AliasAdmitted i s

/-! ## What a command leaves alone -/

/-- The engine has completed a command with outcome `c` (R246). -/
def Completed (t : State) (c : Code) : Prop := t.errcode = c ∧ t.busy = false ∧ t.done = true

/-- Every register that no command writes is the same in both states: KEY, CTX, IV, MSGID, LEN, ADDR_A,
ADDR_B, ADDR_D, CTRL.IE, STATUS.OVR and CMDL; so are the parameters, the inputs to come and what the
host has read. -/
def SameOperands (s t : State) : Prop :=
  t.key = s.key ∧ t.ctx = s.ctx ∧ t.iv = s.iv ∧ t.msgid = s.msgid ∧ t.len = s.len ∧
  t.addrA = s.addrA ∧ t.addrB = s.addrB ∧ t.addrD = s.addrD ∧ t.ie = s.ie ∧ t.ovr = s.ovr ∧
  t.cmdl = s.cmdl ∧ t.cfg = s.cfg ∧ t.pending = s.pending ∧ t.hostWord = s.hostWord ∧ t.hostByte = s.hostByte

/-- The registers that hold operands and read back what was written (10_state.md R23): LEN, ADDR_A, ADDR_B,
ADDR_D, MSGID_LO, MSGID_HI, CTX_0 and CTX_1, IV_0 to IV_4, STATE_0 to STATE_11. -/
def IsOperandReg (r : Reg) : Prop :=
  r = .len ∨ r = .addrA ∨ r = .addrB ∨ r = .addrD ∨ r = .msgidLo ∨ r = .msgidHi ∨
  (∃ k, k < 2 ∧ r = .ctx k) ∨ (∃ k, k < 5 ∧ r = .iv k) ∨ (∃ k, k < 12 ∧ r = .state k)

/-- The commands that write no byte of S (their rules R141 to R145): CMP, and ZERO, COPY, XOR and XOR2 with
a destination in data memory. -/
def LeavesS (i : Instr) : Prop :=
  i = .zero .mem ∨ (∃ asp, i = .copy asp .mem) ∨ (∃ asp, i = .xor asp .mem) ∨
  (∃ asp bsp, i = .xor2 asp bsp .mem) ∨ (∃ asp bsp, i = .cmp asp bsp)

/-- `W(S, j)` as 10_state.md R20 writes it. -/
def stateWord (v : Bytes 48) (j : Nat) : Word :=
  (byteAt v (4 * j)).zeroExtend 32 ||| ((byteAt v (4 * j + 1)).zeroExtend 32 <<< 8) |||
    ((byteAt v (4 * j + 2)).zeroExtend 32 <<< 16) ||| ((byteAt v (4 * j + 3)).zeroExtend 32 <<< 24)

/-- `S[a+j] <- S[a+j] ^ b j` for `n` bytes from byte `a` on, as 42_sponge.md writes it: byte by byte. -/
def xorRange (v : Bytes 48) (a n : Nat) (b : Nat → Byte) : Bytes 48 :=
  Vector.ofFn (fun i => if a ≤ i.val ∧ i.val < a + n then byteAt v i.val ^^^ b (i.val - a) else byteAt v i.val)

/-- `S[j] <- b j` for the first `n` bytes, as 42_sponge.md writes it: byte by byte. -/
def putRate (v : Bytes 48) (n : Nat) (b : Nat → Byte) : Bytes 48 :=
  Vector.ofFn (fun i => if i.val < n then b i.val else byteAt v i.val)

/-- `Pad(S, pos, dom)` as 42_sponge.md R174 writes it. -/
def padSpec (v : Bytes 48) (pos : Nat) (dom : BitVec 7) : Bytes 48 :=
  xorRange (xorRange v pos 1 (fun _ => (dom.zeroExtend 8 <<< 1) ||| 1)) 15 1 (fun _ => 0x80)

end Sys2Proof.Machine
end

