-- ==== Sys2Proof/Certificates/Slice0/Obligations.lean ====
section
/-! DEFINITION. The statements for the provers: what the spec's rules say of the machine. Each docstring
names the rules it formalises. -/

open Sys2Proof Sys2Proof.Machine

/-! ## Encoding -/

/-- 30_encoding.md R97: the rows are tried by mask and match, at most one row selects a word, a selected
row gives the command, and a word that no row selects is refused; so the decoder is total. -/
def Obligations.DecodeFollowsTheOneSelectingRow : Prop :=
  ∀ w : Word,
    (∀ o p : Opcode, w &&& o.mask = o.matchWord → w &&& p.mask = p.matchWord → o = p) ∧
    (∀ o : Opcode, w &&& o.mask = o.matchWord → decode w = .ok (o.assemble w)) ∧
    ((∀ o : Opcode, w &&& o.mask ≠ o.matchWord) → ∃ e, decode w = .error e)

/-- 30_encoding.md R91 to R94: the encoding of every well-formed command decodes to that command, with
every operand at every value. -/
def Obligations.DecodeOfEncodeIsTheCommand : Prop :=
  ∀ i : Instr, i.wellFormed = true → decode (encode i) = .ok i

/-- 30_encoding.md R91 to R94, the other direction: a word that decodes is the encoding of the command it
decodes to, and that command is well formed. No bit of a legal word is ignored. -/
def Obligations.DecodedWordIsItsEncoding : Prop :=
  ∀ (w : Word) (i : Instr), decode w = .ok i → i.wellFormed = true ∧ encode i = w

/-- 30_encoding.md R95: the illegal encodings are exactly the words with an unassigned OP, with RSV ≠ 0, or
with a bit inside the mask of their OP's row that differs from the row's match; such a command completes
with ILLEGAL and changes nothing else. -/
def Obligations.IllegalEncodingsCompleteWithIllegal : Prop :=
  (∀ w : Word, (∃ e, decode w = .error e) ↔
    (w.extractLsb' 0 8 ∉ ([0x01, 0x02, 0x03, 0x04, 0x05, 0x06, 0x08, 0x09, 0x0A, 0x0B, 0x0C, 0x0D, 0x10, 0x11] : List Byte) ∨
      w.extractLsb' 30 2 ≠ 0 ∨
      ∃ o : Opcode, o.op = w.extractLsb' 0 8 ∧ w &&& o.mask ≠ o.matchWord)) ∧
  (∀ (s : State) (e : Reject), s.busy = true → decode s.cmdl = .error e →
    (s.pending = [] → step s = .next { s with errcode := .illegal, busy := false, done := true }) ∧
    (∀ rest, s.pending = .engine :: rest →
      step s = .next { s with pending := rest, errcode := .illegal, busy := false, done := true }))

/-- 30_encoding.md R102: the worked encodings. -/
def Obligations.WorkedEncodings : Prop :=
  (encode (.permute 0x01) = 0x00000101 ∧ decode 0x00000101 = .ok (.permute 0x01)) ∧
  (encode (.setup 0xFE) = 0x0000FE08 ∧ decode 0x0000FE08 = .ok (.setup 0xFE)) ∧
  (encode (.absorb 0x02 0x0F) = 0x00F0020B ∧ decode 0x00F0020B = .ok (.absorb 0x02 0x0F)) ∧
  (encode (.encstream 0x02 0) = 0x0000020C ∧ decode 0x0000020C = .ok (.encstream 0x02 0)) ∧
  (encode (.pad 5 0x0F) = 0x00F5000A ∧ decode 0x00F5000A = .ok (.pad 5 0x0F)) ∧
  (encode (.xor .mem .state) = 0x20000004 ∧ decode 0x20000004 = .ok (.xor .mem .state)) ∧
  (encode (.copy .state .mem) = 0x08000003 ∧ decode 0x08000003 = .ok (.copy .state .mem)) ∧
  (encode (.xor2 .state .mem .state) = 0x28000005 ∧ decode 0x28000005 = .ok (.xor2 .state .mem .state)) ∧
  (encode (.cmp .mem .mem) = 0x00000006 ∧ decode 0x00000006 = .ok (.cmp .mem .mem)) ∧
  (encode .aeadEnc = 0x00000010 ∧ decode 0x00000010 = .ok .aeadEnc) ∧
  decode 0x00000107 = .error (.unassignedOpcode 0x07) ∧
  decode 0x00000102 = .error .unusedField

/-! ## Steps of the machine -/

/-- 30_encoding.md R98, 60_exceptions.md R246, R256: while BUSY = 1, a step of the engine is the perform of the
command that CMDL decodes to; with BUSY = 0 and no input the engine keeps all state. That the field
`pending` names the agent whose turn it is, is the model's choice (log 6). -/
def Obligations.EngineStepPerformsTheDecodedCommand : Prop :=
  (∀ (s : State) (i : Instr), s.busy = true → decode s.cmdl = .ok i →
    (s.pending = [] → step s = exec i s) ∧
    (∀ rest, s.pending = .engine :: rest → step s = exec i { s with pending := rest })) ∧
  (∀ s : State, s.busy = false → s.pending = [] → step s = .next s)

/-- 60_exceptions.md R246: every perform, whatever its outcome, ends in completion: BUSY = 0 and DONE = 1.
There is no hang, no fault and no refusal. -/
def Obligations.EveryPerformCompletes : Prop :=
  (∀ (i : Instr) (s : State), ∃ t, exec i s = .next t ∧ t.busy = false ∧ t.done = true) ∧
  (∀ s : State, s.busy = true → s.pending = [] → ∃ t, step s = .next t ∧ t.busy = false ∧ t.done = true)

/-- 60_exceptions.md R247, R248: a host write to CMD issues the command while BUSY = 0, and while BUSY = 1 only
sets OVR; OVR then stays 1, over every step of the machine, until the host writes 1 to it (or resets). That
the field `pending` names the acting agent is how the model says who acts (log 6). -/
def Obligations.CommandWriteIssuesOrSetsOverrun : Prop :=
  (∀ (s : State) (a w : Word) (rest : List Input),
    s.pending = .regWrite a 4 w :: rest → a.toNat = s.cfg.regBase.toNat + 8 →
    (s.busy = false → step s = .next
      { s with pending := rest, cmdl := w, busy := true, done := false, errcode := .ok }) ∧
    (s.busy = true → step s = .next { s with pending := rest, ovr := true })) ∧
  (∀ s t : State, step s = .next t → s.ovr = true → t.ovr = false →
    (∃ rest, s.pending = .reset :: rest) ∨
    (∃ a v rest, s.pending = .regWrite a 4 v :: rest ∧ a.toNat = s.cfg.regBase.toNat + 4 ∧
      v.getLsbD 4 = true))

/-- 10_state.md R36: while BUSY = 1, host writes to every register are ignored except STATUS's W1C bits and
CTRL's IE; a write to CMD sets OVR (R248). -/
def Obligations.WritesWhileBusyAreIgnored : Prop :=
  ∀ (s : State) (v : Word), s.busy = true →
    (∀ r : Reg, r ≠ .ctrl → r ≠ .status → r ≠ .cmd → writeReg s r v = s) ∧
    writeReg s .ctrl v = { s with ie := v.getLsbD 0 } ∧
    writeReg s .status v = { s with done := s.done && !v.getLsbD 1, ovr := s.ovr && !v.getLsbD 4 } ∧
    writeReg s .cmd v = { s with ovr := true }

/-- 10_state.md R34, R37: while BUSY = 0 the STATE window reads and writes the words of S; while BUSY = 1 it
reads 0 and ignores writes, and the other registers read as they do while idle. -/
def Obligations.StateWindowShowsSOnlyWhileIdle : Prop :=
  (∀ (s : State) (k : Nat), k < 12 → s.busy = false → readReg s (.state k) = stateWord s.S k) ∧
  (∀ (s : State) (k : Nat) (v : Word), k < 12 → s.busy = false →
    (∀ j, j < 4 → byteAt (writeReg s (.state k) v).S (4 * k + j) = v.extractLsb' (8 * j) 8) ∧
    (∀ j, j < 4 * k ∨ 4 * k + 4 ≤ j → byteAt (writeReg s (.state k) v).S j = byteAt s.S j) ∧
    writeReg s (.state k) v = { s with S := (writeReg s (.state k) v).S }) ∧
  (∀ (s : State) (k : Nat) (v : Word), s.busy = true →
    readReg s (.state k) = 0 ∧ writeReg s (.state k) v = s) ∧
  (∀ (s : State) (b : Bool),
    (∀ r : Reg, (∀ k, r ≠ .state k) → r ≠ .status → readReg { s with busy := b } r = readReg s r) ∧
    (∀ n, 0 < n → (readReg { s with busy := b } .status).getLsbD n = (readReg s .status).getLsbD n))

/-- 10_state.md R23, R27, R28, R30 to R32, R34: how the operand registers hold MSGID (R30), CTX (R31), IV (R32), LEN and
the addresses; an operand register written while BUSY = 0 reads back the word written, every other register
reads as before, and nothing that is no operand changes. -/
def Obligations.OperandRegistersReadBackWhatWasWritten : Prop :=
  (∀ s : State,
    readReg s .len = s.len ∧ readReg s .addrA = s.addrA ∧ readReg s .addrB = s.addrB ∧
    readReg s .addrD = s.addrD ∧
    s.msgid = ((readReg s .msgidHi).zeroExtend 64 <<< 32) ||| (readReg s .msgidLo).zeroExtend 64 ∧
    (∀ i, i < 8 → byteAt s.ctx i = (readReg s (.ctx (i / 4))).extractLsb' (8 * (i % 4)) 8) ∧
    (∀ i, i < 20 → byteAt s.iv i = (readReg s (.iv (i / 4))).extractLsb' (8 * (i % 4)) 8)) ∧
  (∀ (s : State) (r : Reg) (v : Word), s.busy = false → IsOperandReg r →
    readReg (writeReg s r v) r = v ∧
    (∀ q : Reg, q ≠ r → readReg (writeReg s r v) q = readReg s q) ∧
    ∃ S ctx iv msgid len a b d, writeReg s r v =
      { s with
        S := S, ctx := ctx, iv := iv, msgid := msgid, len := len, addrA := a, addrB := b, addrD := d })

/-- 10_state.md R23: the register at each offset of the block, and the read-only and write-only registers:
CMP_ACC ignores writes, CMD and KEY_k read 0. -/
def Obligations.RegisterMapOfTheBlock : Prop :=
  Reg.ofOffset 0x000 = .ctrl ∧ Reg.ofOffset 0x004 = .status ∧ Reg.ofOffset 0x008 = .cmd ∧
  Reg.ofOffset 0x00C = .len ∧ Reg.ofOffset 0x010 = .addrA ∧ Reg.ofOffset 0x014 = .addrB ∧
  Reg.ofOffset 0x018 = .addrD ∧ Reg.ofOffset 0x01C = .cmpAcc ∧ Reg.ofOffset 0x020 = .msgidLo ∧
  Reg.ofOffset 0x024 = .msgidHi ∧ Reg.ofOffset 0x028 = .ctx 0 ∧ Reg.ofOffset 0x02C = .ctx 1 ∧
  (∀ k, k < 5 → Reg.ofOffset (0x030 + 4 * k) = .iv k) ∧
  (∀ k, k < 8 → Reg.ofOffset (0x080 + 4 * k) = .key k) ∧
  (∀ k, k < 12 → Reg.ofOffset (0x0C0 + 4 * k) = .state k) ∧
  (∀ (s : State) (v : Word), writeReg s .cmpAcc v = s ∧ readReg s .cmpAcc = s.cmpAcc) ∧
  (∀ (s : State) (k : Nat), readReg s .cmd = 0 ∧ readReg s (.key k) = 0)

/-- 10_state.md R33: KEY_k holds the key bytes 4k to 4k+3 and reads 0, and an idle write to it changes nothing else; reset and CTRL.KCLR clear the key;
otherwise, over every step of the machine, the key keeps its value until the host writes a KEY register. -/
def Obligations.KeyIsWriteOnlyAndKept : Prop :=
  (∀ (s : State) (k : Nat), readReg s (.key k) = 0) ∧
  (∀ (s : State) (k : Nat) (v : Word), k < 8 → s.busy = false →
    (∀ j, j < 4 → byteAt (writeReg s (.key k) v).key (4 * k + j) = v.extractLsb' (8 * j) 8) ∧
    (∀ j, j < 4 * k ∨ 4 * k + 4 ≤ j → byteAt (writeReg s (.key k) v).key j = byteAt s.key j) ∧
    writeReg s (.key k) v = { s with key := (writeReg s (.key k) v).key }) ∧
  (∀ (s : State) (v : Word), s.busy = false → v.getLsbD 1 = true →
    (writeReg s .ctrl v).key = Vector.replicate 32 0) ∧
  (∀ (s : State) (rest : List Input), s.pending = .reset :: rest →
    ∃ t, step s = .next t ∧ t.key = Vector.replicate 32 0) ∧
  (∀ s t : State, step s = .next t → t.key ≠ s.key →
    (∃ rest, s.pending = .reset :: rest) ∨
    (∃ a v rest off, s.pending = .regWrite a 4 v :: rest ∧ s.busy = false ∧
      a.toNat = s.cfg.regBase.toNat + off ∧
      ((off = 0 ∧ v.getLsbD 1 = true) ∨ ∃ k, k < 8 ∧ off = 0x080 + 4 * k)))

/-- 10_state.md R33, 60_exceptions.md R251: the key cannot be read back. Two states that differ only in KEY give
the host the same word at every register read, and stay alike but for KEY. -/
def Obligations.HostReadsDoNotRevealTheKey : Prop :=
  ∀ s t : State, SameButKey s t →
    (∀ r : Reg, readReg s r = readReg t r) ∧ s.irq = t.irq ∧
    (∀ (a : Word) (width : Nat) (rest : List Input), s.pending = .regRead a width :: rest →
      (∀ s', step s = .next s' → ∃ t', step t = .next t' ∧ SameButKey s' t' ∧ t'.hostWord = s'.hostWord) ∧
      (∀ e, step s = .refused e → step t = .refused e))

/-! ## Reset -/

/-- 10_state.md R41, 70_reset_and_hazards.md R270: the values of every piece of engine state after reset, in
State.reset and after the reset input, with IRQ deasserted. -/
def Obligations.ResetSetsEveryEngineField : Prop :=
  (∀ (s : State) (rest : List Input), s.pending = .reset :: rest → ∃ t, step s = .next t) ∧
  (∀ t : State, (t = State.reset ∨ ∃ s rest, s.pending = Input.reset :: rest ∧ step s = .next t) →
    t.S = Vector.replicate 48 0 ∧ t.key = Vector.replicate 32 0 ∧ t.ctx = Vector.replicate 8 0 ∧
    t.iv = Vector.replicate 20 0 ∧ t.msgid = 0 ∧ t.len = 0 ∧ t.addrA = 0 ∧ t.addrB = 0 ∧ t.addrD = 0 ∧
    t.cmpAcc = 0 ∧ t.ie = false ∧ t.busy = false ∧ t.done = false ∧ t.ovr = false ∧ t.errcode = .ok ∧
    t.cmdl = 0 ∧ t.err = false ∧ t.cmpne = false ∧ t.irq = false)

/-- 70_reset_and_hazards.md R271, R272: reset does not change data memory, except that it may leave the MEM
destination bytes of a command it abandons at any value. What that destination is, is the model's choice where
the latched word decodes to no command or its command would fail validation (log 14), where the range passes
the top of memory (log 15), and for AEAD_DEC with LEN < 36, which here has no destination byte (log 16). -/
def Obligations.ResetKeepsMemoryOutsideAnAbandonedDestination : Prop :=
  ∀ (s t : State) (rest : List Input), s.pending = .reset :: rest → step s = .next t →
    (s.busy = false → t.mem = s.mem) ∧
    (∀ a, (∀ i d, s.busy = true → decode s.cmdl = .ok i → destination i s = some d → ¬ InRange d .mem a) →
      t.mem.read a = s.mem.read a)

/-! ## Flags, interrupt and register accesses -/

/-- 60_exceptions.md R249: IRQ = DONE & IE; completion raises it if enabled, and it clears by writing 1 to
DONE, writing 0 to IE, or issuing a command. -/
def Obligations.InterruptIsDoneAndEnable : Prop :=
  (∀ s : State, s.irq = (s.done && s.ie)) ∧
  (∀ (i : Instr) (s t : State), exec i s = .next t → t.irq = s.ie) ∧
  (∀ (s : State) (v : Word), v.getLsbD 1 = true → (writeReg s .status v).irq = false) ∧
  (∀ (s : State) (v : Word), v.getLsbD 0 = false → (writeReg s .ctrl v).irq = false) ∧
  (∀ (s : State) (v : Word), s.busy = false → (writeReg s .cmd v).irq = false)

/-- 10_state.md R25, 60_exceptions.md R241: the fields of STATUS, the numbers of ERRCODE, and the W1C bits, which
take effect even while BUSY = 1. -/
def Obligations.StatusFieldsAndW1C : Prop :=
  (∀ s : State,
    (readReg s .status).getLsbD 0 = s.busy ∧ (readReg s .status).getLsbD 1 = s.done ∧
    ((readReg s .status).getLsbD 2 = true ↔ s.errcode ≠ .ok) ∧
    ((readReg s .status).getLsbD 3 = true ↔ s.cmpAcc ≠ 0) ∧
    (readReg s .status).getLsbD 4 = s.ovr ∧ (readReg s .status).extractLsb' 5 3 = 0 ∧
    (readReg s .status).extractLsb' 8 4 = s.errcode.number ∧ (readReg s .status).extractLsb' 12 20 = 0) ∧
  (Code.number .ok = 0 ∧ Code.number .illegal = 1 ∧ Code.number .stateRange = 2 ∧ Code.number .wrap = 3 ∧
    Code.number .aliasing = 4 ∧ Code.number .len = 5 ∧ Code.number .bus = 6 ∧ Code.number .auth = 7) ∧
  (∀ (s : State) (v : Word), writeReg s .status v =
    { s with done := s.done && !v.getLsbD 1, ovr := s.ovr && !v.getLsbD 4 })

/-- 10_state.md R35: the reserved offsets read as 0 and ignore writes, and so do the reserved bits of CTRL and
STATUS. -/
def Obligations.ReservedOffsetsAndBitsReadZero : Prop :=
  (∀ (s : State) (v : Word) (off : Nat), off % 4 = 0 →
    ((0x044 ≤ off ∧ off ≤ 0x07C) ∨ (0x0A0 ≤ off ∧ off ≤ 0x0BC) ∨ (0x0F0 ≤ off ∧ off ≤ 0x0FC)) →
    readReg s (Reg.ofOffset off) = 0 ∧ writeReg s (Reg.ofOffset off) v = s) ∧
  (∀ (s : State) (n : Nat), 1 ≤ n → (readReg s .ctrl).getLsbD n = false) ∧
  (∀ (s : State) (v w : Word), v.getLsbD 0 = w.getLsbD 0 → v.getLsbD 1 = w.getLsbD 1 →
    writeReg s .ctrl v = writeReg s .ctrl w) ∧
  (∀ (s : State) (n : Nat), (5 ≤ n ∧ n ≤ 7) ∨ 12 ≤ n → (readReg s .status).getLsbD n = false) ∧
  (∀ (s : State) (v w : Word), v.getLsbD 1 = w.getLsbD 1 → v.getLsbD 4 = w.getLsbD 4 →
    writeReg s .status v = writeReg s .status w)

/-- 20_memory.md R71: an aligned 32-bit access at REG_BASE + off reads or writes the register of that offset; an
access of another width or at an offset that is not a multiple of 4 is refused. A read has no side
effect (R72). That the value read is kept in `hostWord` is the model's choice (log 7). -/
def Obligations.RegisterAccessesAreAlignedWords : Prop :=
  ∀ (s : State) (a v : Word) (width off : Nat) (rest : List Input),
    a.toNat = s.cfg.regBase.toNat + off → off < 256 →
    (width = 4 → off % 4 = 0 →
      (s.pending = .regWrite a width v :: rest →
        step s = .next (writeReg { s with pending := rest } (Reg.ofOffset off) v)) ∧
      (s.pending = .regRead a width :: rest →
        step s = .next { s with pending := rest, hostWord := readReg s (Reg.ofOffset off) })) ∧
    (width ≠ 4 ∨ off % 4 ≠ 0 →
      (s.pending = .regWrite a width v :: rest → step s = .refused (.registerAccess off width)) ∧
      (s.pending = .regRead a width :: rest → step s = .refused (.registerAccess off width)))

/-- 20_memory.md R78: while a command runs, a host write to a byte of its source or destination ranges, and a
host read of a byte of its destination or of the in-place range of an AEAD command, is the fault
HOST_RACE; every other access takes its effect, and so does every access while BUSY = 0. The model's choices: a
command that will fail validation has the ranges R99 gives it, and an illegal word has none (log 14); the
destination of AEAD_DEC with LEN < 36 is empty (log 16); a byte read is kept in `hostByte` (log 7). -/
def Obligations.HostRaceFaultsExactlyOnForbiddenBytes : Prop :=
  (∀ (s : State) (rest : List Input) (a : Word) (v : Byte),
    (s.busy = false ∨ ∃ e, decode s.cmdl = .error e) →
    (s.pending = .memWrite a v :: rest →
      step s = .next { s with pending := rest, mem := s.mem.set a.toNat v }) ∧
    (s.pending = .memRead a :: rest →
      step s = .next { s with pending := rest, hostByte := s.mem.read a.toNat })) ∧
  ∀ (s : State) (i : Instr) (rest : List Input) (a : Word) (v : Byte),
    s.busy = true → decode s.cmdl = .ok i →
    (s.pending = .memWrite a v :: rest →
      ((∃ r ∈ ranges i s, InRange r .mem a.toNat) → step s = .fault (.hostRace a)) ∧
      ((∀ r ∈ ranges i s, ¬ InRange r .mem a.toNat) →
        step s = .next { s with pending := rest, mem := s.mem.set a.toNat v })) ∧
    (s.pending = .memRead a :: rest →
      (((∃ d, destination i s = some d ∧ InRange d .mem a.toNat) ∨
        (IsAead i ∧ s.addrD = s.addrA ∧ ∃ q ∈ sources i s, InRange q .mem a.toNat)) →
        step s = .fault (.hostRace a)) ∧
      ((¬ ∃ d, destination i s = some d ∧ InRange d .mem a.toNat) →
        ¬ (IsAead i ∧ s.addrD = s.addrA ∧ ∃ q ∈ sources i s, InRange q .mem a.toNat) →
        step s = .next { s with pending := rest, hostByte := s.mem.read a.toNat }))

/-! ## The permutation -/

/-- 40_permutation.md R120 to R122: the column step on the words of every column, the round-end transform of every
round, and the 24 rounds counting down. -/
def Obligations.CoreFollowsTheRoundRules : Prop :=
  (∀ (g : Grid) (c : Nat), c < 4 →
    let x := (g.word c <<< 24) ||| (g.word c >>> (32 - 24))
    let y := (g.word (4 + c) <<< 9) ||| (g.word (4 + c) >>> (32 - 9))
    let z := g.word (8 + c)
    (columnSteps g).word (8 + c) = x ^^^ (z <<< 1) ^^^ ((y &&& z) <<< 2) ∧
    (columnSteps g).word (4 + c) = y ^^^ x ^^^ ((x ||| z) <<< 1) ∧
    (columnSteps g).word c = z ^^^ y ^^^ ((x &&& y) <<< 3)) ∧
  (∀ (g : Grid) (round : Nat), 1 ≤ round → round ≤ 24 →
    (round % 4 = 0 →
      (roundEnd round g).word 0 = g.word 1 ^^^ (0x9e377900 ||| BitVec.ofNat 32 round) ∧
      (roundEnd round g).word 1 = g.word 0 ∧ (roundEnd round g).word 2 = g.word 3 ∧
      (roundEnd round g).word 3 = g.word 2) ∧
    (round % 4 = 2 →
      (roundEnd round g).word 0 = g.word 2 ∧ (roundEnd round g).word 1 = g.word 3 ∧
      (roundEnd round g).word 2 = g.word 0 ∧ (roundEnd round g).word 3 = g.word 1) ∧
    (round % 2 = 1 → roundEnd round g = g) ∧
    (∀ j, 4 ≤ j → j < 12 → (roundEnd round g).word j = g.word j)) ∧
  (∀ g : Grid, core g = (List.range 24).foldl (fun u k => roundEnd (24 - k) (columnSteps u)) g)

/-- 40_permutation.md R123: the tag is XORed into S[47], that is into the high byte of word 11; Core runs on the
little-endian words of S, and its words are the words of the result. -/
def Obligations.PermFoldsTheTagAndRunsCore : Prop :=
  ∀ (v : Bytes 48) (tag : Byte) (j : Nat), j < 12 →
    (Grid.ofBytes v).word j = stateWord v j ∧
    stateWord (xorRange v 47 1 (fun _ => tag)) j =
      (if j = 11 then stateWord v 11 ^^^ (tag.zeroExtend 32 <<< 24) else stateWord v j) ∧
    stateWord (perm v tag) j = (core (Grid.ofBytes (xorRange v 47 1 (fun _ => tag)))).word j

/-- 30_encoding.md R96: PERMUTE with TAG = 0x00 is the permutation with no tag, and no other word encodes it. -/
def Obligations.PermuteWithTagZeroIsUntagged : Prop :=
  (∀ s : State, exec (.permute 0x00) s = .next
    { s with S := (core (Grid.ofBytes s.S)).toBytes, errcode := .ok, busy := false, done := true }) ∧
  (∀ w : Word, decode w = .ok (.permute 0x00) ↔ w = 0x00000001)

/-- 40_permutation.md R125: PERMUTE completes in every state, S becomes Perm(S, tag), and no other register
changes but STATUS. A tag only changes S[47] before Core. -/
def Obligations.PermuteAppliesPerm : Prop :=
  ∀ (tag : Byte) (s : State),
    exec (.permute tag) s = .next
      { s with S := perm s.S tag, errcode := .ok, busy := false, done := true } ∧
    perm s.S tag = perm (xorRange s.S 47 1 (fun _ => tag)) 0

/-- 40_permutation.md R125: the source's test vector. -/
def Obligations.PermutationSourceVector : Prop :=
  ∀ s : State, s.S = Vector.ofFn (fun i =>
      wordByte (BitVec.ofNat 32 ((i.val / 4) * (i.val / 4) * (i.val / 4) + (i.val / 4) * 0x9e3779b9)) (i.val % 4)) →
    ∃ t, exec (.permute 0) s = .next t ∧
      (List.range 12).map (stateWord t.S) =
        [0xba11c85a, 0x91bad119, 0x380ce880, 0xd24c2c68, 0x3eceffea, 0x277a921c,
         0x4f73a0bd, 0xda5a9cd8, 0x84b673f0, 0x34e52ff7, 0x9e2bef49, 0xf41bb8d6]

/-! ## The state buffer algebra -/

/-- 41_buffer_algebra.md R141: ZERO, run normally, sets exactly the bytes of D to zero, whichever space D is
in, and changes no other byte of memory or of S and no register but STATUS. -/
def Obligations.ZeroClearsItsRange : Prop :=
  ∀ (dsp : Space) (s : State), RunsNormally (.zero dsp) s →
    ∃ t, exec (.zero dsp) s = .next t ∧ Completed t .ok ∧ SameOperands s t ∧ t.cmpAcc = s.cmpAcc ∧
      ∀ sp a, (InRange ⟨dsp, s.addrD.toNat, s.len.toNat⟩ sp a → byteIn t sp a = 0) ∧
        (¬ InRange ⟨dsp, s.addrD.toNat, s.len.toNat⟩ sp a → byteIn t sp a = byteIn s sp a)

/-- 41_buffer_algebra.md R142, 20_memory.md R68: COPY, run normally, gives byte k of D the byte k that A held
before, and changes no other byte of memory or of S and no register but STATUS. -/
def Obligations.CopyCopiesItsRange : Prop :=
  ∀ (asp dsp : Space) (s : State), RunsNormally (.copy asp dsp) s →
    ∃ t, exec (.copy asp dsp) s = .next t ∧ Completed t .ok ∧ SameOperands s t ∧ t.cmpAcc = s.cmpAcc ∧
      ∀ sp a,
        (InRange ⟨dsp, s.addrD.toNat, s.len.toNat⟩ sp a →
          byteIn t sp a = byteIn s asp (s.addrA.toNat + (a - s.addrD.toNat))) ∧
        (¬ InRange ⟨dsp, s.addrD.toNat, s.len.toNat⟩ sp a → byteIn t sp a = byteIn s sp a)

/-- 41_buffer_algebra.md R143, 20_memory.md R68: XOR, run normally, XORs byte k of A into byte k of D, and changes
no other byte of memory or of S and no register but STATUS. -/
def Obligations.XorXorsIntoItsRange : Prop :=
  ∀ (asp dsp : Space) (s : State), RunsNormally (.xor asp dsp) s →
    ∃ t, exec (.xor asp dsp) s = .next t ∧ Completed t .ok ∧ SameOperands s t ∧ t.cmpAcc = s.cmpAcc ∧
      ∀ sp a,
        (InRange ⟨dsp, s.addrD.toNat, s.len.toNat⟩ sp a →
          byteIn t sp a = byteIn s asp (s.addrA.toNat + (a - s.addrD.toNat)) ^^^ byteIn s dsp a) ∧
        (¬ InRange ⟨dsp, s.addrD.toNat, s.len.toNat⟩ sp a → byteIn t sp a = byteIn s sp a)

/-- 41_buffer_algebra.md R144, 20_memory.md R68: XOR2, run normally, gives byte k of D the XOR of the bytes k of A
and B, and changes no other byte of memory or of S and no register but STATUS. -/
def Obligations.Xor2XorsTwoRangesIntoAThird : Prop :=
  ∀ (asp bsp dsp : Space) (s : State), RunsNormally (.xor2 asp bsp dsp) s →
    ∃ t, exec (.xor2 asp bsp dsp) s = .next t ∧ Completed t .ok ∧ SameOperands s t ∧ t.cmpAcc = s.cmpAcc ∧
      ∀ sp a,
        (InRange ⟨dsp, s.addrD.toNat, s.len.toNat⟩ sp a →
          byteIn t sp a = byteIn s asp (s.addrA.toNat + (a - s.addrD.toNat)) ^^^
            byteIn s bsp (s.addrB.toNat + (a - s.addrD.toNat))) ∧
        (¬ InRange ⟨dsp, s.addrD.toNat, s.len.toNat⟩ sp a → byteIn t sp a = byteIn s sp a)

/-- 41_buffer_algebra.md R145: CMP, run normally, sets CMP_ACC to CtCmp of the two ranges and changes nothing
else but STATUS; CMPNE then says whether the two ranges differ in some byte. The exact bits of CtCmp are the spec's own choice
(D21, U16); "Only CMP_ACC ≠ 0 is normative" (R145). -/
def Obligations.CmpSetsTheAccumulator : Prop :=
  ∀ (asp bsp : Space) (s : State), RunsNormally (.cmp asp bsp) s →
    let acc := ctCmp ((List.range s.len.toNat).map (fun k => byteIn s asp (s.addrA.toNat + k)))
      ((List.range s.len.toNat).map (fun k => byteIn s bsp (s.addrB.toNat + k)))
    exec (.cmp asp bsp) s = .next { s with cmpAcc := acc, errcode := .ok, busy := false, done := true } ∧
    (acc ≠ 0 ↔ ∃ k, k < s.len.toNat ∧ byteIn s asp (s.addrA.toNat + k) ≠ byteIn s bsp (s.addrB.toNat + k))

/-- 41_buffer_algebra.md R145: byte i of the comparison goes to lane i mod 4 of CtCmp, and every byte counts: a bit
of a lane is set exactly if the two sequences differ in it at some byte of that lane. The byte-lane placement is
the spec's own choice (92_eei_decisions.md D21, 93_implementation_defined.md U16), not normative: "Only
CMP_ACC ≠ 0 is normative" (R145). A chip with other lanes agrees only on CMPNE. -/
def Obligations.CtCmpOrsEveryByteIntoItsLane : Prop :=
  ∀ a b : List Byte, a.length = b.length → ∀ lane k, lane < 4 → k < 8 →
    ((ctCmp a b).getLsbD (8 * lane + k) = true ↔
      ∃ i, i < a.length ∧ i % 4 = lane ∧ (a.getD i 0 ^^^ b.getD i 0).getLsbD k = true)

/-! ## The sponge sequencer -/

/-- 42_sponge.md R171: SETUP completes in every state and sets S to Setup of the registers; the prior content
of S does not matter, and no other register changes but STATUS. -/
def Obligations.SetupCommandAppliesSetup : Prop :=
  ∀ (tag : Byte) (s : State), exec (.setup tag) s = .next
    { s with
      S := setup s.cfg s.key.toList s.ctx.toList s.iv.toList s.msgid tag
      errcode := .ok, busy := false, done := true }

/-- 42_sponge.md R170: the four steps of Setup, byte by byte. -/
def Obligations.SetupFollowsItsFourSteps : Prop :=
  ∀ (c : Config) (key : Bytes 32) (ctx : Bytes 8) (iv : Bytes 20) (mid : BitVec 64) (kt : Byte),
    let s1 := perm (Vector.ofFn (fun j => if j.val < 8 then byteAt c.domainPrefix j.val
      else if j.val < 16 then byteAt ctx (j.val - 8) else 0)) c.tagHeader
    let s2 := perm (xorRange s1 0 16 (fun j => byteAt key j)) kt
    let s3 := perm (xorRange s2 0 16 (fun j => byteAt key (16 + j))) kt
    let s4 := perm (xorRange (xorRange s3 0 1 (fun _ => 20)) 1 15 (fun j => byteAt iv j)) c.tagHeader
    let s5 := xorRange s4 0 5 (fun j => byteAt iv (15 + j))
    setup c key.toList ctx.toList iv.toList mid kt =
      perm (xorRange s5 5 8 (fun j => mid.extractLsb' (8 * j) 8)) c.tagHeader

/-- 42_sponge.md R173: FINALIZE completes in every state and applies Finalize to S; no other register changes but
STATUS. -/
def Obligations.FinalizeCommandAppliesFinalize : Prop :=
  ∀ (tag : Byte) (s : State), exec (.finalize tag) s = .next
    { s with S := finalize s.S s.key.toList tag, errcode := .ok, busy := false, done := true }

/-- 42_sponge.md R172: Finalize XORs the key into the capacity and permutes, twice. -/
def Obligations.FinalizeAbsorbsTheKeyTwice : Prop :=
  ∀ (v : Bytes 48) (key : Bytes 32) (ft : Byte),
    finalize v key.toList ft =
      perm (xorRange (perm (xorRange v 16 32 (fun j => byteAt key j)) ft) 16 32 (fun j => byteAt key j)) ft

/-- 42_sponge.md R174, R175: PAD completes in every state for every position of the rate: it XORs the pad byte
into S[pos] and 0x80 into S[15], and no other byte of S and no register but STATUS changes. -/
def Obligations.PadMarksPositionAndRateEnd : Prop :=
  ∀ (pos : Nat) (dom : BitVec 7) (s : State), pos < 16 → exec (.pad pos dom) s = .next
    { s with S := padSpec s.S pos dom, errcode := .ok, busy := false, done := true }

/-- 42_sponge.md R177: ABSORB, run normally, sets S to Absorb of S and of the message at A, and changes nothing
else but STATUS. -/
def Obligations.AbsorbCommandAppliesAbsorb : Prop :=
  ∀ (tag : Byte) (dom : BitVec 7) (s : State), RunsNormally (.absorb tag dom) s →
    exec (.absorb tag dom) s = .next
      { s with
        S := absorb s.S ((List.range s.len.toNat).map (fun k => s.mem.read (s.addrA.toNat + k))) tag dom
        errcode := .ok, busy := false, done := true }

/-- 42_sponge.md R176: Absorb as the spec's loop over full blocks, the partial block, Pad and the last Perm. -/
def Obligations.AbsorbIsTheBlockLoop : Prop :=
  ∀ (v : Bytes 48) (m : List Byte) (tag : Byte) (dom : BitVec 7),
    let q := m.length / 16
    let r := m.length % 16
    let u := (List.range q).foldl
      (fun u i => perm (xorRange u 0 16 (fun j => m.getD (16 * i + j) 0)) tag) v
    absorb v m tag dom =
      perm (padSpec (xorRange u 0 r (fun j => m.getD (16 * q + j) 0)) r dom) tag

/-- 42_sponge.md R179: ENCSTREAM, run normally, sets S and writes the ciphertext to D, and changes no other byte
of memory and no register but STATUS. -/
def Obligations.EncstreamCommandEncryptsIntoD : Prop :=
  ∀ (tag : Byte) (dom : BitVec 7) (s : State), RunsNormally (.encstream tag dom) s →
    let p := encStream s.S ((List.range s.len.toNat).map (fun k => s.mem.read (s.addrA.toNat + k))) tag dom
    ∃ t, exec (.encstream tag dom) s = .next t ∧ Completed t .ok ∧ SameOperands s t ∧
      t.cmpAcc = s.cmpAcc ∧ t.S = p.1 ∧
      ∀ a,
        (InRange ⟨.mem, s.addrD.toNat, s.len.toNat⟩ .mem a →
          t.mem.read a = p.2.getD (a - s.addrD.toNat) 0) ∧
        (¬ InRange ⟨.mem, s.addrD.toNat, s.len.toNat⟩ .mem a → t.mem.read a = s.mem.read a)

/-- 42_sponge.md R178: EncStream as the spec's loop: each ciphertext block is the plaintext block XOR the rate and
goes to the output and back into the rate. -/
def Obligations.EncStreamIsTheBlockLoop : Prop :=
  ∀ (v : Bytes 48) (m : List Byte) (tag : Byte) (dom : BitVec 7),
    let q := m.length / 16
    let r := m.length % 16
    let p := (List.range q).foldl
      (fun (p : Bytes 48 × List Byte) i =>
        (perm (putRate p.1 16 (fun j => m.getD (16 * i + j) 0 ^^^ byteAt p.1 j)) tag,
         p.2 ++ (List.range 16).map (fun j => m.getD (16 * i + j) 0 ^^^ byteAt p.1 j)))
      (v, [])
    encStream v m tag dom =
      (perm (padSpec (putRate p.1 r (fun j => m.getD (16 * q + j) 0 ^^^ byteAt p.1 j)) r dom) tag,
       p.2 ++ (List.range r).map (fun j => m.getD (16 * q + j) 0 ^^^ byteAt p.1 j))

/-- 42_sponge.md R181: DECSTREAM, run normally, sets S and writes the plaintext to D, whatever a tag would say, and
changes no other byte of memory and no register but STATUS. -/
def Obligations.DecstreamCommandDecryptsIntoD : Prop :=
  ∀ (tag : Byte) (dom : BitVec 7) (s : State), RunsNormally (.decstream tag dom) s →
    let p := decStream s.S ((List.range s.len.toNat).map (fun k => s.mem.read (s.addrA.toNat + k))) tag dom
    ∃ t, exec (.decstream tag dom) s = .next t ∧ Completed t .ok ∧ SameOperands s t ∧
      t.cmpAcc = s.cmpAcc ∧ t.S = p.1 ∧
      ∀ a,
        (InRange ⟨.mem, s.addrD.toNat, s.len.toNat⟩ .mem a →
          t.mem.read a = p.2.getD (a - s.addrD.toNat) 0) ∧
        (¬ InRange ⟨.mem, s.addrD.toNat, s.len.toNat⟩ .mem a → t.mem.read a = s.mem.read a)

/-- 42_sponge.md R180: DecStream as the spec's loop: the ciphertext block, not the plaintext, goes back into the
rate. -/
def Obligations.DecStreamIsTheBlockLoop : Prop :=
  ∀ (v : Bytes 48) (c : List Byte) (tag : Byte) (dom : BitVec 7),
    let q := c.length / 16
    let r := c.length % 16
    let p := (List.range q).foldl
      (fun (p : Bytes 48 × List Byte) i =>
        (perm (putRate p.1 16 (fun j => c.getD (16 * i + j) 0)) tag,
         p.2 ++ (List.range 16).map (fun j => c.getD (16 * i + j) 0 ^^^ byteAt p.1 j)))
      (v, [])
    decStream v c tag dom =
      (perm (padSpec (putRate p.1 r (fun j => c.getD (16 * q + j) 0)) r dom) tag,
       p.2 ++ (List.range r).map (fun j => c.getD (16 * q + j) 0 ^^^ byteAt p.1 j))

/-- 42_sponge.md R182: DecStream inverts EncStream. -/
def Obligations.DecStreamInvertsEncStream : Prop :=
  ∀ (v u : Bytes 48) (m c : List Byte) (tag : Byte) (dom : BitVec 7),
    encStream v m tag dom = (u, c) → decStream v c tag dom = (u, m)

/-- 42_sponge.md R183, for a message shorter than a block: XOR into the rate, PAD and PERMUTE leave the same S and
memory as ABSORB. -/
def Obligations.PartialAbsorbFromPrimitives : Prop :=
  ∀ (tag : Byte) (dom : BitVec 7) (s : State), RunsNormally (.absorb tag dom) s →
    s.len.toNat < 16 → s.addrD = 0 →
    ∃ s1 s2 s3 t, exec (.xor .mem .state) s = .next s1 ∧ exec (.pad s.len.toNat dom) s1 = .next s2 ∧
      exec (.permute tag) s2 = .next s3 ∧ exec (.absorb tag dom) s = .next t ∧ s3 = t

/-! ## The AEAD controller -/

/-- 43_aead.md R215: AEAD_ENC, run normally, writes the ciphertext of the message at A to D and zeroes S; no other
byte of memory changes, and no register but STATUS. -/
def Obligations.AeadEncWritesTheCiphertext : Prop :=
  ∀ s : State, RunsNormally .aeadEnc s →
    let c := aeadEncrypt s.cfg s.key.toList s.ctx.toList s.iv.toList s.msgid
      ((List.range s.len.toNat).map (fun k => s.mem.read (s.addrA.toNat + k)))
    ∃ t, exec .aeadEnc s = .next t ∧ Completed t .ok ∧ SameOperands s t ∧ t.cmpAcc = s.cmpAcc ∧
      t.S = Vector.replicate 48 0 ∧
      ∀ a,
        (InRange ⟨.mem, s.addrD.toNat, s.len.toNat + 36⟩ .mem a →
          t.mem.read a = c.getD (a - s.addrD.toNat) 0) ∧
        (¬ InRange ⟨.mem, s.addrD.toNat, s.len.toNat + 36⟩ .mem a → t.mem.read a = s.mem.read a)

/-- 43_aead.md R210 to R214: the two passes of encryption, where the SIV and the tag are taken, the layout
SIV ‖ TAG ‖ BODY and its length. -/
def Obligations.CiphertextLayoutAndPasses : Prop :=
  ∀ (c : Config) (key : Bytes 32) (ctx : Bytes 8) (iv : Bytes 20) (mid : BitVec 64) (m : List Byte),
    let u1 := finalize (absorb (setup c key.toList ctx.toList iv.toList mid c.tagKey0) m
      c.tagPayload c.domXof) key.toList c.tagFinal0
    let siv := (List.range 20).map (fun j => byteAt u1 (16 + j))
    let p := encStream (setup c key.toList ctx.toList siv mid c.tagKey) m c.tagPayload c.domAead
    let u2 := finalize p.1 key.toList c.tagFinal
    let tag := (List.range 16).map (fun j => byteAt u2 (16 + j))
    aeadEncrypt c key.toList ctx.toList iv.toList mid m = siv ++ tag ++ p.2 ∧
    p.2.length = m.length ∧
    (aeadEncrypt c key.toList ctx.toList iv.toList mid m).length = m.length + 36

/-- 43_aead.md R217, R218, R222: AEAD_DEC, run normally, recomputes the tag from the SIV and body in the ciphertext;
if all 16 tag bytes match it writes the plaintext and completes with OK, otherwise it writes zeros and
completes with AUTH; S is zeroed either way, and nothing else changes but STATUS. -/
def Obligations.AeadDecReleasesPlaintextOnlyOnMatch : Prop :=
  ∀ s : State, RunsNormally .aeadDec s →
    let c := (List.range s.len.toNat).map (fun k => s.mem.read (s.addrA.toNat + k))
    let p := decStream (setup s.cfg s.key.toList s.ctx.toList (c.take 20) s.msgid s.cfg.tagKey) (c.drop 36)
      s.cfg.tagPayload s.cfg.domAead
    let u := finalize p.1 s.key.toList s.cfg.tagFinal
    ∃ t, exec .aeadDec s = .next t ∧ SameOperands s t ∧ t.cmpAcc = s.cmpAcc ∧
      t.S = Vector.replicate 48 0 ∧
      (∀ a, ¬ InRange ⟨.mem, s.addrD.toNat, s.len.toNat - 36⟩ .mem a → t.mem.read a = s.mem.read a) ∧
      ((∀ j, j < 16 → byteAt u (16 + j) = c.getD (20 + j) 0) →
        Completed t .ok ∧ ∀ k, k < s.len.toNat - 36 → t.mem.read (s.addrD.toNat + k) = p.2.getD k 0) ∧
      ((∃ j, j < 16 ∧ byteAt u (16 + j) ≠ c.getD (20 + j) 0) →
        Completed t .auth ∧ ∀ k, k < s.len.toNat - 36 → t.mem.read (s.addrD.toNat + k) = 0)

/-- 43_aead.md R221 (a): the round trip. After AEAD_ENC, the host sets ADDR_A to the ciphertext, LEN to its length and
ADDR_D to a destination; AEAD_DEC then completes with OK and writes the message back. -/
def Obligations.AeadRoundTrip : Prop :=
  ∀ (s t : State) (d n : Word), RunsNormally .aeadEnc s → exec .aeadEnc s = .next t →
    n.toNat = s.len.toNat + 36 →
    RunsNormally .aeadDec { t with addrA := s.addrD, addrD := d, len := n } →
    ∃ u, exec .aeadDec { t with addrA := s.addrD, addrD := d, len := n } = .next u ∧ Completed u .ok ∧
      ∀ k, k < s.len.toNat → u.mem.read (d.toNat + k) = s.mem.read (s.addrA.toNat + k)

/-- 43_aead.md R216: in-place encryption gives the same ciphertext as encryption into a separate buffer. -/
def Obligations.InPlaceEncryptionEqualsOutOfPlace : Prop :=
  ∀ (s : State) (d : Word), s.addrD = s.addrA → RunsNormally .aeadEnc s →
    RunsNormally .aeadEnc { s with addrD := d } →
    ∃ t u, exec .aeadEnc s = .next t ∧ exec .aeadEnc { s with addrD := d } = .next u ∧
      ∀ k, k < s.len.toNat + 36 → t.mem.read (s.addrA.toNat + k) = u.mem.read (d.toNat + k)

/-- 43_aead.md R220: no partial success. Over idempotent memory (R72), whenever AEAD_DEC completes with OK its
destination holds the plaintext and the tag matched; with AUTH it holds zeros; a validation error writes
nothing; and no outcome but these and BUS exists. -/
def Obligations.DecryptionIsAllOrNothing : Prop :=
  ∀ s t : State, (∀ r ∈ ranges .aeadDec s, Idempotent s.cfg r) → exec .aeadDec s = .next t →
    let c := (List.range s.len.toNat).map (fun k => s.mem.read (s.addrA.toNat + k))
    let p := decStream (setup s.cfg s.key.toList s.ctx.toList (c.take 20) s.msgid s.cfg.tagKey) (c.drop 36)
      s.cfg.tagPayload s.cfg.domAead
    (t.errcode = .ok →
      (∀ j, j < 16 → byteAt (finalize p.1 s.key.toList s.cfg.tagFinal) (16 + j) = c.getD (20 + j) 0) ∧
      ∀ k, k < s.len.toNat - 36 → t.mem.read (s.addrD.toNat + k) = p.2.getD k 0) ∧
    (t.errcode = .auth → ∀ k, k < s.len.toNat - 36 → t.mem.read (s.addrD.toNat + k) = 0) ∧
    (t.errcode = .len ∨ t.errcode = .wrap ∨ t.errcode = .aliasing → t.mem = s.mem) ∧
    (t.errcode = .ok ∨ t.errcode = .auth ∨ t.errcode = .len ∨ t.errcode = .wrap ∨ t.errcode = .aliasing ∨
      t.errcode = .bus)

/-! ## Rules over all commands -/

/-- 10_state.md R29, 43_aead.md R219: no command but CMP writes CMP_ACC, so none changes CMPNE; AEAD_DEC does not, so it
never exposes its tag comparison. That this holds over memory with side effects too is the model's choice (log 11). -/
def Obligations.OnlyCmpWritesTheAccumulator : Prop :=
  ∀ (i : Instr) (s t : State), (∀ asp bsp, i ≠ .cmp asp bsp) → exec i s = .next t →
    t.cmpAcc = s.cmpAcc ∧ t.cmpne = s.cmpne

/-- 10_state.md R27 to R33: no command, whatever its outcome, writes an operand register, KEY, IE, OVR or CMDL. -/
def Obligations.CommandsKeepOperandRegisters : Prop :=
  ∀ (i : Instr) (s t : State), exec i s = .next t → SameOperands s t

/-- 20_memory.md R62: whatever its outcome, a command changes no byte of data memory outside its destination range;
a command without a MEM destination leaves all of memory as it is, and a command that writes no byte of S
leaves S as it is, which over memory with side effects is the model's choice (log 11). -/
def Obligations.CommandsWriteOnlyTheirDestination : Prop :=
  ∀ (i : Instr) (s t : State), exec i s = .next t →
    (∀ a, (∀ d, destination i s = some d → ¬ InRange d .mem a) → t.mem.read a = s.mem.read a) ∧
    ((∀ d, destination i s = some d → d.space = .state) → t.mem = s.mem) ∧
    (LeavesS i → t.S = s.S)

/-- 60_exceptions.md R243: a validation error leaves S, every register other than STATUS, and all of data memory
unchanged. That this holds of S for AEAD_ENC and AEAD_DEC too, against R22's "whatever the outcome", is the
model's choice (log 9). -/
def Obligations.ValidationErrorsChangeOnlyStatus : Prop :=
  (∀ (i : Instr) (s t : State), exec i s = .next t →
    t.errcode = .len ∨ t.errcode = .stateRange ∨ t.errcode = .wrap ∨ t.errcode = .aliasing →
    t = { s with errcode := t.errcode, busy := false, done := true }) ∧
  (∀ (s t : State), s.busy = true → (s.pending = [] ∨ ∃ rest, s.pending = .engine :: rest) →
    step s = .next t → t.errcode = .illegal →
    t = { s with pending := s.pending.tail, errcode := .illegal, busy := false, done := true })

/-- 60_exceptions.md R242: the order in which errors are reported. That the last clause (OK, or AUTH for AEAD_DEC) also
holds over memory with side effects is the model's choice (log 11). -/
def Obligations.ErrorsAreReportedInOrder : Prop :=
  (∀ (s t : State) (e : Reject), s.busy = true → (s.pending = [] ∨ ∃ rest, s.pending = .engine :: rest) →
    decode s.cmdl = .error e → step s = .next t → t.errcode = .illegal) ∧
  (∀ (i : Instr) (s t : State), exec i s = .next t →
    ((i = .aeadDec ∧ s.len.toNat < 36) → t.errcode = .len) ∧
    ((i = .aeadDec → 36 ≤ s.len.toNat) →
      ((∃ r ∈ ranges i s, r.space = .state ∧ ¬ Fits r) → t.errcode = .stateRange) ∧
      ((∀ r ∈ ranges i s, r.space = .state → Fits r) →
        ((∃ r ∈ ranges i s, r.space = .mem ∧ ¬ Fits r) → t.errcode = .wrap) ∧
        ((∀ r ∈ ranges i s, Fits r) →
          (¬ AliasAdmitted i s → t.errcode = .aliasing) ∧
          (AliasAdmitted i s →
            ((∃ r ∈ ranges i s, ¬ Admitted s.cfg r) → t.errcode = .bus) ∧
            ((∀ r ∈ ranges i s, Admitted s.cfg r) →
              t.errcode = .ok ∨ (i = .aeadDec ∧ t.errcode = .auth)))))))

/-- 60_exceptions.md R244: a BUS error. What it leaves unspecified is a free value (log 4), of which nothing is said
here; everything else is unchanged, and the AEAD commands still set S to zero. -/
def Obligations.BusErrorOutcome : Prop :=
  ∀ (i : Instr) (s : State), (i = .aeadDec → 36 ≤ s.len.toNat) → (∀ r ∈ ranges i s, Fits r) →
    AliasAdmitted i s → (∃ r ∈ ranges i s, ¬ Admitted s.cfg r) →
    ∃ t, exec i s = .next t ∧ Completed t .bus ∧ SameOperands s t ∧
      (∀ a, (∀ d, destination i s = some d → ¬ InRange d .mem a) → t.mem.read a = s.mem.read a) ∧
      (IsAead i → t.S = Vector.replicate 48 0) ∧
      (LeavesS i → t.S = s.S) ∧
      ((∀ asp bsp, i ≠ .cmp asp bsp) → t.cmpAcc = s.cmpAcc)

/-! ## The invariant -/

/-- 10_state.md R41, 00_scope.md R8: the state after reset meets the invariant. The parameters of that state are the
model's choice (log 1 to log 3), and so is the bound on REG_BASE (log 22). -/
def Obligations.ResetMeetsTheInvariant : Prop := MachineInv State.reset

/-- 60_exceptions.md R246, R247, 20_memory.md R60: from every state that meets the invariant, every step that gives a
next state gives one that meets it: memory stays canonical and inside its address space, the parameters
keep their constraints (the one on REG_BASE is the model's, log 22), and a running command has neither DONE nor an
error code set. -/
def Obligations.StepKeepsTheInvariant : Prop :=
  ∀ s t : State, MachineInv s → step s = .next t → MachineInv t

/-! ## CTRL -/

/-- 10_state.md R24, R36: a read of CTRL gives IE in bit 0 and 0 in every other bit, KCLR among them; a write of CTRL, in
every state, sets IE to bit 0, zeroes KEY exactly if bit 1 is set and BUSY = 0, and changes nothing else. -/
def Obligations.CtrlHoldsEnableAndClearsTheKey : Prop :=
  (∀ s : State, (readReg s .ctrl).getLsbD 0 = s.ie ∧ ∀ n, 1 ≤ n → (readReg s .ctrl).getLsbD n = false) ∧
  (∀ (s : State) (v : Word), v.getLsbD 1 = true → s.busy = false →
    writeReg s .ctrl v = { s with ie := v.getLsbD 0, key := Vector.replicate 32 0 }) ∧
  (∀ (s : State) (v : Word), v.getLsbD 1 = false ∨ s.busy = true →
    writeReg s .ctrl v = { s with ie := v.getLsbD 0 })
end

