-- ==== Sys2Proof/Laws/Bytes.lean ====
section
/-! SUPPORT. Byte sequences: what one byte of a written, read or XORed sequence is, and the little-endian
word view. -/

namespace Sys2Proof.Machine

variable {n : Nat}

theorem byteAt_eq_getElem (v : Bytes n) {i : Nat} (h : i < n) : byteAt v i = v[i] := by
  unfold byteAt
  rw [List.getD_eq_getElem _ _ (by simpa using h)]
  simp

theorem byteAt_of_le (v : Bytes n) {i : Nat} (h : n ≤ i) : byteAt v i = 0 := by
  unfold byteAt
  exact List.getD_eq_default _ _ (by simpa using h)

/-- Two byte fields with the same bytes are equal. -/
theorem bytes_ext {v w : Bytes n} (h : ∀ i, i < n → byteAt v i = byteAt w i) : v = w := by
  apply Vector.ext
  intro i hi
  have := h i hi
  rwa [byteAt_eq_getElem _ hi, byteAt_eq_getElem _ hi] at this

@[simp] theorem byteAt_replicate (b : Byte) (i : Nat) : byteAt (Vector.replicate n b) i = if i < n then b else 0 := by
  split
  · rename_i h; simp [byteAt_eq_getElem _ h]
  · rename_i h; exact byteAt_of_le _ (by omega)

theorem byteAt_ofFn (f : Fin n → Byte) {i : Nat} (h : i < n) : byteAt (Vector.ofFn f) i = f ⟨i, h⟩ := by
  simp [byteAt_eq_getElem _ h]

theorem byteAt_set (v : Bytes n) (a : Nat) (b : Byte) (i : Nat) :
    byteAt (v.setIfInBounds a b) i = if i = a ∧ a < n then b else byteAt v i := by
  by_cases hi : i < n
  · rw [byteAt_eq_getElem _ hi, byteAt_eq_getElem _ hi, Vector.getElem_setIfInBounds]
    by_cases ha : a = i
    · subst ha; simp [hi]
    · have : ¬ (i = a ∧ a < n) := fun h => ha h.1.symm
      simp [ha, this]
  · rw [byteAt_of_le _ (by omega), byteAt_of_le _ (by omega)]
    have : ¬ (i = a ∧ a < n) := by omega
    simp [this]

/-- One byte after a write of a sequence (20_memory.md R65). -/
theorem byteAt_putBytes (v : Bytes n) (a : Nat) (bs : List Byte) (i : Nat) :
    byteAt (putBytes v a bs) i = if a ≤ i ∧ i < a + bs.length ∧ i < n then bs.getD (i - a) 0 else byteAt v i := by
  induction bs generalizing v a with
  | nil =>
    have : ¬ (a ≤ i ∧ i < a + ([] : List Byte).length ∧ i < n) := by simp; omega
    simp only [putBytes, if_neg this]
  | cons b rest ih =>
    rw [putBytes, ih, byteAt_set]
    by_cases h1 : a + 1 ≤ i ∧ i < a + 1 + rest.length ∧ i < n
    · have h2 : a ≤ i ∧ i < a + (b :: rest).length ∧ i < n := by simp; omega
      rw [if_pos h1, if_pos h2]
      have : i - a = (i - (a + 1)) + 1 := by omega
      simp [this]
    · rw [if_neg h1]
      by_cases h3 : i = a ∧ a < n
      · have h2 : a ≤ i ∧ i < a + (b :: rest).length ∧ i < n := by simp; omega
        rw [if_pos h3, if_pos h2]
        simp [h3.1]
      · have h2 : ¬ (a ≤ i ∧ i < a + (b :: rest).length ∧ i < n) := by
          simp only [List.length_cons] at *; omega
        rw [if_neg h3, if_neg h2]

theorem length_bytesFrom (v : Bytes n) {a len : Nat} (h : a + len ≤ n) : (bytesFrom v a len).length = len := by
  simp [bytesFrom]; omega

theorem getD_bytesFrom (v : Bytes n) (a len : Nat) {i : Nat} (h : i < len) :
    (bytesFrom v a len).getD i 0 = byteAt v (a + i) := by
  simp [bytesFrom, byteAt, List.getD_eq_getElem?_getD, h]

@[simp] theorem length_xorBytes (a b : List Byte) : (xorBytes a b).length = min a.length b.length := by
  simp [xorBytes]

theorem getD_xorBytes (a b : List Byte) {i : Nat} (ha : i < a.length) (hb : i < b.length) :
    (xorBytes a b).getD i 0 = a.getD i 0 ^^^ b.getD i 0 := by
  simp [xorBytes, List.getD_eq_getElem?_getD, ha, hb]

/-- One byte after a sequence has been XORed in (42_sponge.md R170, R172, R174, R176). -/
theorem byteAt_xorInto (v : Bytes n) (a : Nat) (bs : List Byte) (h : a + bs.length ≤ n) (i : Nat) :
    byteAt (xorInto v a bs) i =
      if a ≤ i ∧ i < a + bs.length then byteAt v i ^^^ bs.getD (i - a) 0 else byteAt v i := by
  have hl : (xorBytes (bytesFrom v a bs.length) bs).length = bs.length := by
    rw [length_xorBytes, length_bytesFrom v h]; simp
  rw [xorInto, byteAt_putBytes, hl]
  by_cases hi : a ≤ i ∧ i < a + bs.length
  · rw [if_pos (by omega), if_pos hi,
      getD_xorBytes _ _ (by rw [length_bytesFrom v h]; omega) (by omega),
      getD_bytesFrom v a _ (by omega), show a + (i - a) = i by omega]
  · rw [if_neg (by omega), if_neg hi]

@[simp] theorem length_zeros (k : Nat) : (zeros k).length = k := by simp [zeros]

@[simp] theorem getD_zeros (k i : Nat) : (zeros k).getD i 0 = 0 := by
  simp only [zeros, List.getD_eq_getElem?_getD, List.getElem?_replicate]
  split <;> rfl

@[simp] theorem length_freeBytes (d k : Nat) : (freeBytes d k).length = k := by simp [freeBytes]

@[simp] theorem length_le64 (v : BitVec 64) : (le64 v).length = 8 := by simp [le64]

/-- Byte `k` of a word put together from four bytes is byte `k` of them (10_state.md R20). -/
theorem wordByte_le32 (b0 b1 b2 b3 : Byte) :
    wordByte (le32 b0 b1 b2 b3) 0 = b0 ∧ wordByte (le32 b0 b1 b2 b3) 1 = b1 ∧
      wordByte (le32 b0 b1 b2 b3) 2 = b2 ∧ wordByte (le32 b0 b1 b2 b3) 3 = b3 := by
  refine ⟨?_, ?_, ?_, ?_⟩ <;>
    (apply BitVec.eq_of_getLsbD_eq
     intro i hi
     interval_cases i <;> simp [wordByte, le32])

/-- A word is its four bytes put together again (10_state.md R23). -/
theorem le32_wordByte (w : Word) : le32 (wordByte w 0) (wordByte w 1) (wordByte w 2) (wordByte w 3) = w := by
  apply BitVec.eq_of_getLsbD_eq
  intro i hi
  interval_cases i <;> simp [wordByte, le32]

end Sys2Proof.Machine
end

