-- ==== Sys2Proof/Laws/State.lean ====
section
/-! SUPPORT. One lemma per field per named update of State, so that no proof unfolds a record update. -/

namespace Sys2Proof.Machine

variable (s : State)

/-! ## State.complete -/

@[simp] theorem State.complete_S (c : Code) : (s.complete c).S = s.S := rfl
@[simp] theorem State.complete_key (c : Code) : (s.complete c).key = s.key := rfl
@[simp] theorem State.complete_ctx (c : Code) : (s.complete c).ctx = s.ctx := rfl
@[simp] theorem State.complete_iv (c : Code) : (s.complete c).iv = s.iv := rfl
@[simp] theorem State.complete_msgid (c : Code) : (s.complete c).msgid = s.msgid := rfl
@[simp] theorem State.complete_len (c : Code) : (s.complete c).len = s.len := rfl
@[simp] theorem State.complete_addrA (c : Code) : (s.complete c).addrA = s.addrA := rfl
@[simp] theorem State.complete_addrB (c : Code) : (s.complete c).addrB = s.addrB := rfl
@[simp] theorem State.complete_addrD (c : Code) : (s.complete c).addrD = s.addrD := rfl
@[simp] theorem State.complete_cmpAcc (c : Code) : (s.complete c).cmpAcc = s.cmpAcc := rfl
@[simp] theorem State.complete_ie (c : Code) : (s.complete c).ie = s.ie := rfl
@[simp] theorem State.complete_busy (c : Code) : (s.complete c).busy = false := rfl
@[simp] theorem State.complete_done (c : Code) : (s.complete c).done = true := rfl
@[simp] theorem State.complete_ovr (c : Code) : (s.complete c).ovr = s.ovr := rfl
@[simp] theorem State.complete_errcode (c : Code) : (s.complete c).errcode = c := rfl
@[simp] theorem State.complete_cmdl (c : Code) : (s.complete c).cmdl = s.cmdl := rfl
@[simp] theorem State.complete_mem (c : Code) : (s.complete c).mem = s.mem := rfl
@[simp] theorem State.complete_cfg (c : Code) : (s.complete c).cfg = s.cfg := rfl
@[simp] theorem State.complete_pending (c : Code) : (s.complete c).pending = s.pending := rfl
@[simp] theorem State.complete_hostWord (c : Code) : (s.complete c).hostWord = s.hostWord := rfl
@[simp] theorem State.complete_hostByte (c : Code) : (s.complete c).hostByte = s.hostByte := rfl
@[simp] theorem State.complete_draws (c : Code) : (s.complete c).draws = s.draws := rfl

/-! ## State.issue -/

@[simp] theorem State.issue_S (w : Word) : (s.issue w).S = s.S := rfl
@[simp] theorem State.issue_key (w : Word) : (s.issue w).key = s.key := rfl
@[simp] theorem State.issue_ctx (w : Word) : (s.issue w).ctx = s.ctx := rfl
@[simp] theorem State.issue_iv (w : Word) : (s.issue w).iv = s.iv := rfl
@[simp] theorem State.issue_msgid (w : Word) : (s.issue w).msgid = s.msgid := rfl
@[simp] theorem State.issue_len (w : Word) : (s.issue w).len = s.len := rfl
@[simp] theorem State.issue_addrA (w : Word) : (s.issue w).addrA = s.addrA := rfl
@[simp] theorem State.issue_addrB (w : Word) : (s.issue w).addrB = s.addrB := rfl
@[simp] theorem State.issue_addrD (w : Word) : (s.issue w).addrD = s.addrD := rfl
@[simp] theorem State.issue_cmpAcc (w : Word) : (s.issue w).cmpAcc = s.cmpAcc := rfl
@[simp] theorem State.issue_ie (w : Word) : (s.issue w).ie = s.ie := rfl
@[simp] theorem State.issue_busy (w : Word) : (s.issue w).busy = true := rfl
@[simp] theorem State.issue_done (w : Word) : (s.issue w).done = false := rfl
@[simp] theorem State.issue_ovr (w : Word) : (s.issue w).ovr = s.ovr := rfl
@[simp] theorem State.issue_errcode (w : Word) : (s.issue w).errcode = .ok := rfl
@[simp] theorem State.issue_cmdl (w : Word) : (s.issue w).cmdl = w := rfl
@[simp] theorem State.issue_mem (w : Word) : (s.issue w).mem = s.mem := rfl
@[simp] theorem State.issue_cfg (w : Word) : (s.issue w).cfg = s.cfg := rfl
@[simp] theorem State.issue_pending (w : Word) : (s.issue w).pending = s.pending := rfl
@[simp] theorem State.issue_hostWord (w : Word) : (s.issue w).hostWord = s.hostWord := rfl
@[simp] theorem State.issue_hostByte (w : Word) : (s.issue w).hostByte = s.hostByte := rfl
@[simp] theorem State.issue_draws (w : Word) : (s.issue w).draws = s.draws := rfl

/-! ## State.setS -/

@[simp] theorem State.setS_S (v : Bytes 48) : (s.setS v).S = v := rfl
@[simp] theorem State.setS_key (v : Bytes 48) : (s.setS v).key = s.key := rfl
@[simp] theorem State.setS_ctx (v : Bytes 48) : (s.setS v).ctx = s.ctx := rfl
@[simp] theorem State.setS_iv (v : Bytes 48) : (s.setS v).iv = s.iv := rfl
@[simp] theorem State.setS_msgid (v : Bytes 48) : (s.setS v).msgid = s.msgid := rfl
@[simp] theorem State.setS_len (v : Bytes 48) : (s.setS v).len = s.len := rfl
@[simp] theorem State.setS_addrA (v : Bytes 48) : (s.setS v).addrA = s.addrA := rfl
@[simp] theorem State.setS_addrB (v : Bytes 48) : (s.setS v).addrB = s.addrB := rfl
@[simp] theorem State.setS_addrD (v : Bytes 48) : (s.setS v).addrD = s.addrD := rfl
@[simp] theorem State.setS_cmpAcc (v : Bytes 48) : (s.setS v).cmpAcc = s.cmpAcc := rfl
@[simp] theorem State.setS_ie (v : Bytes 48) : (s.setS v).ie = s.ie := rfl
@[simp] theorem State.setS_busy (v : Bytes 48) : (s.setS v).busy = s.busy := rfl
@[simp] theorem State.setS_done (v : Bytes 48) : (s.setS v).done = s.done := rfl
@[simp] theorem State.setS_ovr (v : Bytes 48) : (s.setS v).ovr = s.ovr := rfl
@[simp] theorem State.setS_errcode (v : Bytes 48) : (s.setS v).errcode = s.errcode := rfl
@[simp] theorem State.setS_cmdl (v : Bytes 48) : (s.setS v).cmdl = s.cmdl := rfl
@[simp] theorem State.setS_mem (v : Bytes 48) : (s.setS v).mem = s.mem := rfl
@[simp] theorem State.setS_cfg (v : Bytes 48) : (s.setS v).cfg = s.cfg := rfl
@[simp] theorem State.setS_pending (v : Bytes 48) : (s.setS v).pending = s.pending := rfl
@[simp] theorem State.setS_hostWord (v : Bytes 48) : (s.setS v).hostWord = s.hostWord := rfl
@[simp] theorem State.setS_hostByte (v : Bytes 48) : (s.setS v).hostByte = s.hostByte := rfl
@[simp] theorem State.setS_draws (v : Bytes 48) : (s.setS v).draws = s.draws := rfl

/-! ## State.setMem -/

@[simp] theorem State.setMem_S (m : Memory) : (s.setMem m).S = s.S := rfl
@[simp] theorem State.setMem_key (m : Memory) : (s.setMem m).key = s.key := rfl
@[simp] theorem State.setMem_ctx (m : Memory) : (s.setMem m).ctx = s.ctx := rfl
@[simp] theorem State.setMem_iv (m : Memory) : (s.setMem m).iv = s.iv := rfl
@[simp] theorem State.setMem_msgid (m : Memory) : (s.setMem m).msgid = s.msgid := rfl
@[simp] theorem State.setMem_len (m : Memory) : (s.setMem m).len = s.len := rfl
@[simp] theorem State.setMem_addrA (m : Memory) : (s.setMem m).addrA = s.addrA := rfl
@[simp] theorem State.setMem_addrB (m : Memory) : (s.setMem m).addrB = s.addrB := rfl
@[simp] theorem State.setMem_addrD (m : Memory) : (s.setMem m).addrD = s.addrD := rfl
@[simp] theorem State.setMem_cmpAcc (m : Memory) : (s.setMem m).cmpAcc = s.cmpAcc := rfl
@[simp] theorem State.setMem_ie (m : Memory) : (s.setMem m).ie = s.ie := rfl
@[simp] theorem State.setMem_busy (m : Memory) : (s.setMem m).busy = s.busy := rfl
@[simp] theorem State.setMem_done (m : Memory) : (s.setMem m).done = s.done := rfl
@[simp] theorem State.setMem_ovr (m : Memory) : (s.setMem m).ovr = s.ovr := rfl
@[simp] theorem State.setMem_errcode (m : Memory) : (s.setMem m).errcode = s.errcode := rfl
@[simp] theorem State.setMem_cmdl (m : Memory) : (s.setMem m).cmdl = s.cmdl := rfl
@[simp] theorem State.setMem_mem (m : Memory) : (s.setMem m).mem = m := rfl
@[simp] theorem State.setMem_cfg (m : Memory) : (s.setMem m).cfg = s.cfg := rfl
@[simp] theorem State.setMem_pending (m : Memory) : (s.setMem m).pending = s.pending := rfl
@[simp] theorem State.setMem_hostWord (m : Memory) : (s.setMem m).hostWord = s.hostWord := rfl
@[simp] theorem State.setMem_hostByte (m : Memory) : (s.setMem m).hostByte = s.hostByte := rfl
@[simp] theorem State.setMem_draws (m : Memory) : (s.setMem m).draws = s.draws := rfl

/-! ## State.setCmpAcc -/

@[simp] theorem State.setCmpAcc_S (v : Word) : (s.setCmpAcc v).S = s.S := rfl
@[simp] theorem State.setCmpAcc_key (v : Word) : (s.setCmpAcc v).key = s.key := rfl
@[simp] theorem State.setCmpAcc_ctx (v : Word) : (s.setCmpAcc v).ctx = s.ctx := rfl
@[simp] theorem State.setCmpAcc_iv (v : Word) : (s.setCmpAcc v).iv = s.iv := rfl
@[simp] theorem State.setCmpAcc_msgid (v : Word) : (s.setCmpAcc v).msgid = s.msgid := rfl
@[simp] theorem State.setCmpAcc_len (v : Word) : (s.setCmpAcc v).len = s.len := rfl
@[simp] theorem State.setCmpAcc_addrA (v : Word) : (s.setCmpAcc v).addrA = s.addrA := rfl
@[simp] theorem State.setCmpAcc_addrB (v : Word) : (s.setCmpAcc v).addrB = s.addrB := rfl
@[simp] theorem State.setCmpAcc_addrD (v : Word) : (s.setCmpAcc v).addrD = s.addrD := rfl
@[simp] theorem State.setCmpAcc_cmpAcc (v : Word) : (s.setCmpAcc v).cmpAcc = v := rfl
@[simp] theorem State.setCmpAcc_ie (v : Word) : (s.setCmpAcc v).ie = s.ie := rfl
@[simp] theorem State.setCmpAcc_busy (v : Word) : (s.setCmpAcc v).busy = s.busy := rfl
@[simp] theorem State.setCmpAcc_done (v : Word) : (s.setCmpAcc v).done = s.done := rfl
@[simp] theorem State.setCmpAcc_ovr (v : Word) : (s.setCmpAcc v).ovr = s.ovr := rfl
@[simp] theorem State.setCmpAcc_errcode (v : Word) : (s.setCmpAcc v).errcode = s.errcode := rfl
@[simp] theorem State.setCmpAcc_cmdl (v : Word) : (s.setCmpAcc v).cmdl = s.cmdl := rfl
@[simp] theorem State.setCmpAcc_mem (v : Word) : (s.setCmpAcc v).mem = s.mem := rfl
@[simp] theorem State.setCmpAcc_cfg (v : Word) : (s.setCmpAcc v).cfg = s.cfg := rfl
@[simp] theorem State.setCmpAcc_pending (v : Word) : (s.setCmpAcc v).pending = s.pending := rfl
@[simp] theorem State.setCmpAcc_hostWord (v : Word) : (s.setCmpAcc v).hostWord = s.hostWord := rfl
@[simp] theorem State.setCmpAcc_hostByte (v : Word) : (s.setCmpAcc v).hostByte = s.hostByte := rfl
@[simp] theorem State.setCmpAcc_draws (v : Word) : (s.setCmpAcc v).draws = s.draws := rfl

/-! ## State.countDraws -/

@[simp] theorem State.countDraws_S (n : Nat) : (s.countDraws n).S = s.S := rfl
@[simp] theorem State.countDraws_key (n : Nat) : (s.countDraws n).key = s.key := rfl
@[simp] theorem State.countDraws_ctx (n : Nat) : (s.countDraws n).ctx = s.ctx := rfl
@[simp] theorem State.countDraws_iv (n : Nat) : (s.countDraws n).iv = s.iv := rfl
@[simp] theorem State.countDraws_msgid (n : Nat) : (s.countDraws n).msgid = s.msgid := rfl
@[simp] theorem State.countDraws_len (n : Nat) : (s.countDraws n).len = s.len := rfl
@[simp] theorem State.countDraws_addrA (n : Nat) : (s.countDraws n).addrA = s.addrA := rfl
@[simp] theorem State.countDraws_addrB (n : Nat) : (s.countDraws n).addrB = s.addrB := rfl
@[simp] theorem State.countDraws_addrD (n : Nat) : (s.countDraws n).addrD = s.addrD := rfl
@[simp] theorem State.countDraws_cmpAcc (n : Nat) : (s.countDraws n).cmpAcc = s.cmpAcc := rfl
@[simp] theorem State.countDraws_ie (n : Nat) : (s.countDraws n).ie = s.ie := rfl
@[simp] theorem State.countDraws_busy (n : Nat) : (s.countDraws n).busy = s.busy := rfl
@[simp] theorem State.countDraws_done (n : Nat) : (s.countDraws n).done = s.done := rfl
@[simp] theorem State.countDraws_ovr (n : Nat) : (s.countDraws n).ovr = s.ovr := rfl
@[simp] theorem State.countDraws_errcode (n : Nat) : (s.countDraws n).errcode = s.errcode := rfl
@[simp] theorem State.countDraws_cmdl (n : Nat) : (s.countDraws n).cmdl = s.cmdl := rfl
@[simp] theorem State.countDraws_mem (n : Nat) : (s.countDraws n).mem = s.mem := rfl
@[simp] theorem State.countDraws_cfg (n : Nat) : (s.countDraws n).cfg = s.cfg := rfl
@[simp] theorem State.countDraws_pending (n : Nat) : (s.countDraws n).pending = s.pending := rfl
@[simp] theorem State.countDraws_hostWord (n : Nat) : (s.countDraws n).hostWord = s.hostWord := rfl
@[simp] theorem State.countDraws_hostByte (n : Nat) : (s.countDraws n).hostByte = s.hostByte := rfl
@[simp] theorem State.countDraws_draws (n : Nat) : (s.countDraws n).draws = s.draws + n := rfl

/-! ## State.setPending -/

@[simp] theorem State.setPending_S (l : List Input) : (s.setPending l).S = s.S := rfl
@[simp] theorem State.setPending_key (l : List Input) : (s.setPending l).key = s.key := rfl
@[simp] theorem State.setPending_ctx (l : List Input) : (s.setPending l).ctx = s.ctx := rfl
@[simp] theorem State.setPending_iv (l : List Input) : (s.setPending l).iv = s.iv := rfl
@[simp] theorem State.setPending_msgid (l : List Input) : (s.setPending l).msgid = s.msgid := rfl
@[simp] theorem State.setPending_len (l : List Input) : (s.setPending l).len = s.len := rfl
@[simp] theorem State.setPending_addrA (l : List Input) : (s.setPending l).addrA = s.addrA := rfl
@[simp] theorem State.setPending_addrB (l : List Input) : (s.setPending l).addrB = s.addrB := rfl
@[simp] theorem State.setPending_addrD (l : List Input) : (s.setPending l).addrD = s.addrD := rfl
@[simp] theorem State.setPending_cmpAcc (l : List Input) : (s.setPending l).cmpAcc = s.cmpAcc := rfl
@[simp] theorem State.setPending_ie (l : List Input) : (s.setPending l).ie = s.ie := rfl
@[simp] theorem State.setPending_busy (l : List Input) : (s.setPending l).busy = s.busy := rfl
@[simp] theorem State.setPending_done (l : List Input) : (s.setPending l).done = s.done := rfl
@[simp] theorem State.setPending_ovr (l : List Input) : (s.setPending l).ovr = s.ovr := rfl
@[simp] theorem State.setPending_errcode (l : List Input) : (s.setPending l).errcode = s.errcode := rfl
@[simp] theorem State.setPending_cmdl (l : List Input) : (s.setPending l).cmdl = s.cmdl := rfl
@[simp] theorem State.setPending_mem (l : List Input) : (s.setPending l).mem = s.mem := rfl
@[simp] theorem State.setPending_cfg (l : List Input) : (s.setPending l).cfg = s.cfg := rfl
@[simp] theorem State.setPending_pending (l : List Input) : (s.setPending l).pending = l := rfl
@[simp] theorem State.setPending_hostWord (l : List Input) : (s.setPending l).hostWord = s.hostWord := rfl
@[simp] theorem State.setPending_hostByte (l : List Input) : (s.setPending l).hostByte = s.hostByte := rfl
@[simp] theorem State.setPending_draws (l : List Input) : (s.setPending l).draws = s.draws := rfl

/-! ## The named updates as record updates, for statements that give a whole next state -/

theorem State.complete_eq (c : Code) : s.complete c = { s with errcode := c, busy := false, done := true } := rfl
theorem State.setPending_eq (l : List Input) : s.setPending l = { s with pending := l } := rfl
theorem State.setMem_eq (m : Memory) : s.setMem m = { s with mem := m } := rfl
theorem State.setS_complete_eq (v : Bytes 48) (c : Code) :
    (s.setS v).complete c = { s with S := v, errcode := c, busy := false, done := true } := rfl
theorem State.setCmpAcc_complete_eq (v : Word) (c : Code) :
    (s.setCmpAcc v).complete c = { s with cmpAcc := v, errcode := c, busy := false, done := true } := rfl

end Sys2Proof.Machine
end

