-- ==== Sys2Proof/Laws/Memory.lean ====
section
/-! SUPPORT. The data memory: read after write, and every operation keeps the canonical form. -/

namespace Sys2Proof.Machine

theorem Memory.get?_set (m : Memory) (a : Nat) (v : Byte) (b : Nat) :
    (m.set a v).get? b = if b = a then some v else m.get? b := by
  induction m with
  | nil => simp only [Memory.set, Memory.get?, eq_comm]
  | cons c rest ih =>
    obtain ⟨k, w⟩ := c
    simp only [Memory.set]
    split
    · simp only [Memory.get?, eq_comm]
    · split
      · rename_i _ h; subst h
        by_cases hb : b = a
        · subst hb; simp [Memory.get?]
        · simp [Memory.get?, hb, Ne.symm hb]
      · rename_i _ h
        simp only [Memory.get?, ih]
        by_cases hk : k = b
        · subst hk; simp [Ne.symm h]
        · simp [hk]

/-- A read after a write gives the byte written; every other address reads as before. -/
theorem Memory.read_set (m : Memory) (a : Nat) (v : Byte) (b : Nat) :
    (m.set a v).read b = if b = a then v else m.read b := by
  unfold Memory.read
  rw [Memory.get?_set]
  split <;> simp

/-- One byte after MemWrite (00_scope.md R12). -/
theorem Memory.read_writeBytes (m : Memory) (a : Nat) (bs : List Byte) (b : Nat) :
    (m.writeBytes a bs).read b = if a ≤ b ∧ b < a + bs.length then bs.getD (b - a) 0 else m.read b := by
  induction bs generalizing m a with
  | nil =>
    have : ¬ (a ≤ b ∧ b < a + ([] : List Byte).length) := by simp
    simp only [Memory.writeBytes, if_neg this]
  | cons x rest ih =>
    rw [Memory.writeBytes, ih, Memory.read_set]
    by_cases h1 : a + 1 ≤ b ∧ b < a + 1 + rest.length
    · have h2 : a ≤ b ∧ b < a + (x :: rest).length := by simp; omega
      rw [if_pos h1, if_pos h2]
      have : b - a = (b - (a + 1)) + 1 := by omega
      simp [this]
    · rw [if_neg h1]
      by_cases h3 : b = a
      · subst h3; simp
      · have h2 : ¬ (a ≤ b ∧ b < a + (x :: rest).length) := by simp only [List.length_cons]; omega
        rw [if_neg h3, if_neg h2]

@[simp] theorem Memory.length_readBytes (m : Memory) (a k : Nat) : (m.readBytes a k).length = k := by
  simp [Memory.readBytes]

theorem Memory.getD_readBytes (m : Memory) (a k : Nat) {i : Nat} (h : i < k) :
    (m.readBytes a k).getD i 0 = m.read (a + i) := by
  simp [Memory.readBytes, List.getD_eq_getElem?_getD, h]

/-! ## The canonical form -/

theorem Memory.wf_iff (m : Memory) : m.wf = true ↔
    List.Pairwise (fun x y : Host.Cell => x.1 < y.1) m ∧ ∀ c ∈ m, c.1 < 2 ^ 32 := by
  simp [Memory.wf]

theorem Memory.mem_set {m : Memory} {a : Nat} {v : Byte} {c : Host.Cell} (h : c ∈ m.set a v) :
    c = (a, v) ∨ c ∈ m := by
  induction m with
  | nil => simpa [Memory.set] using h
  | cons d rest ih =>
    obtain ⟨k, w⟩ := d
    simp only [Memory.set] at h
    split at h
    · simpa using h
    · split at h
      · rcases List.mem_cons.1 h with h | h
        · exact .inl h
        · exact .inr (List.mem_cons_of_mem _ h)
      · rcases List.mem_cons.1 h with h | h
        · exact .inr (by simp [h])
        · rcases ih h with h | h
          · exact .inl h
          · exact .inr (List.mem_cons_of_mem _ h)

theorem Memory.pairwise_set {m : Memory} (a : Nat) (v : Byte)
    (h : List.Pairwise (fun x y : Host.Cell => x.1 < y.1) m) :
    List.Pairwise (fun x y : Host.Cell => x.1 < y.1) (m.set a v) := by
  induction m with
  | nil => simp [Memory.set]
  | cons d rest ih =>
    obtain ⟨k, w⟩ := d
    have hk := (List.pairwise_cons.1 h).1
    have hr := (List.pairwise_cons.1 h).2
    simp only [Memory.set]
    split
    · rename_i hlt
      refine List.pairwise_cons.2 ⟨fun c hc => ?_, h⟩
      rcases List.mem_cons.1 hc with hc | hc
      · simpa [hc] using hlt
      · exact Nat.lt_trans hlt (hk c hc)
    · split
      · rename_i _ he
        exact List.pairwise_cons.2 ⟨fun c hc => he ▸ hk c hc, hr⟩
      · rename_i h1 h2
        refine List.pairwise_cons.2 ⟨fun c hc => ?_, ih hr⟩
        rcases Memory.mem_set hc with hc | hc
        · subst hc; show k < a; omega
        · exact hk c hc

/-- Writing a byte at an address of the data memory keeps the canonical form. -/
theorem Memory.wf_set {m : Memory} {a : Nat} (v : Byte) (h : m.wf = true) (ha : a < 2 ^ 32) :
    (m.set a v).wf = true := by
  rw [Memory.wf_iff] at h ⊢
  refine ⟨Memory.pairwise_set a v h.1, fun c hc => ?_⟩
  rcases Memory.mem_set hc with hc | hc
  · simpa [hc] using ha
  · exact h.2 c hc

/-- Writing a sequence inside the data memory keeps the canonical form. -/
theorem Memory.wf_writeBytes {m : Memory} {a : Nat} {bs : List Byte} (h : m.wf = true)
    (ha : a + bs.length ≤ 2 ^ 32) : (m.writeBytes a bs).wf = true := by
  induction bs generalizing m a with
  | nil => exact h
  | cons b rest ih =>
    simp only [List.length_cons] at ha
    exact ih (Memory.wf_set b h (by omega)) (by omega)

theorem Memory.wf_reset : State.reset.mem.wf = true := by decide

theorem Memory.get?_eq_none_of_lt {m : Memory} {a : Nat} (h : ∀ c ∈ m, a < c.1) : m.get? a = none := by
  induction m with
  | nil => rfl
  | cons d rest ih =>
    obtain ⟨k, w⟩ := d
    have := h (k, w) (by simp)
    have hk : k ≠ a := Nat.ne_of_gt this
    simp only [Memory.get?, if_neg hk]
    exact ih (fun c hc => h c (List.mem_cons_of_mem _ hc))

/-- Equal memories are equal data: two canonical memories that list the same byte at every address, and
nothing at the same addresses, are the same list. -/
theorem Memory.ext {m q : Memory} (hm : m.wf = true) (hq : q.wf = true) (h : ∀ a, m.get? a = q.get? a) : m = q := by
  replace hm := ((Memory.wf_iff m).1 hm).1
  replace hq := ((Memory.wf_iff q).1 hq).1
  induction m generalizing q with
  | nil =>
    cases q with
    | nil => rfl
    | cons d rest => have := h d.1; simp [Memory.get?] at this
  | cons c rest ih =>
    cases q with
    | nil => have := h c.1; simp [Memory.get?] at this
    | cons d qrest =>
      obtain ⟨k, v⟩ := c
      obtain ⟨l, w⟩ := d
      have hkr := (List.pairwise_cons.1 hm).1
      have hlr := (List.pairwise_cons.1 hq).1
      have hkl : k = l := by
        rcases Nat.lt_trichotomy k l with hlt | he | hlt
        · have e := h k
          rw [Memory.get?_eq_none_of_lt (m := (l, w) :: qrest)] at e
          · simp [Memory.get?] at e
          · intro c hc
            rcases List.mem_cons.1 hc with hc | hc
            · simpa [hc] using hlt
            · exact Nat.lt_trans hlt (hlr c hc)
        · exact he
        · have e := h l
          rw [Memory.get?_eq_none_of_lt (m := (k, v) :: rest)] at e
          · simp [Memory.get?] at e
          · intro c hc
            rcases List.mem_cons.1 hc with hc | hc
            · simpa [hc] using hlt
            · exact Nat.lt_trans hlt (hkr c hc)
      subst hkl
      have hv : v = w := by have := h k; simpa [Memory.get?] using this
      subst hv
      congr 1
      refine ih (fun a => ?_) (List.pairwise_cons.1 hm).2 (List.pairwise_cons.1 hq).2
      by_cases ha : k = a
      · subst ha
        rw [Memory.get?_eq_none_of_lt hkr, Memory.get?_eq_none_of_lt hlr]
      · have := h a
        simpa [Memory.get?, ha] using this

end Sys2Proof.Machine
end

