-- ==== Sys2Proof/Laws/Ops.lean ====
section
/-! SUPPORT. One spec lemma for each shared operation over ranges: what a read and a write of a range do,
everything that running a command can do, and what an error leaves. -/

namespace Sys2Proof.Machine

/-! ## The checks, as the spec words them -/

theorem overlaps_iff (r q : Range) : r.overlaps q = true ↔ Overlap r q := by
  simp [Range.overlaps, Overlap, and_assoc]

theorem identical_iff (r q : Range) : r.identical q = true ↔ r = q := by
  cases r; cases q
  simp [Range.identical, and_assoc]

theorem coversMem_iff (r : Range) (a : Nat) : r.coversMem a = true ↔ InRange r .mem a := by
  simp [Range.coversMem, InRange, and_assoc]

theorem fits_iff (r : Range) : (r.fitsState = true ∧ r.fitsMem = true) ↔ Fits r := by
  obtain ⟨sp, a, n⟩ := r
  cases sp <;> simp [Range.fitsState, Range.fitsMem, Fits]

theorem admitted_iff (r : Range) (c : Config) : r.admitted c = true ↔ Admitted c r := by
  obtain ⟨sp, a, n⟩ := r
  cases sp
  · simp only [Range.admitted, Admitted, InRange, List.all_eq_true, List.mem_range, true_and]
    constructor
    · intro h b hb
      have := h (b - a) (by omega)
      rwa [show a + (b - a) = b by omega] at this
    · intro h i hi
      exact h (a + i) (by omega)
  · simp [Range.admitted, Admitted, InRange]

theorem idempotent_iff (r : Range) (c : Config) : r.touchesSideEffect c = false ↔ Idempotent c r := by
  obtain ⟨sp, a, n⟩ := r
  cases sp
  · simp only [Range.touchesSideEffect, Idempotent, InRange, List.any_eq_false, List.mem_range, true_and,
      Bool.not_eq_true]
    constructor
    · intro h b hb
      have := h (b - a) (by omega)
      rwa [show a + (b - a) = b by omega] at this
    · intro h i hi
      exact h (a + i) (by omega)
  · simp [Range.touchesSideEffect, Idempotent, InRange]

theorem lengthOk_iff (i : Instr) (s : State) : lengthOk i s = true ↔ (i = .aeadDec → 36 ≤ s.len.toNat) := by
  cases i <;> simp [lengthOk]

theorem stateRangesOk_iff (i : Instr) (s : State) :
    stateRangesOk i s = true ↔ ∀ r ∈ ranges i s, r.space = .state → Fits r := by
  simp only [stateRangesOk, List.all_eq_true]
  refine forall_congr' fun r => imp_congr_right fun _ => ?_
  obtain ⟨sp, a, n⟩ := r
  cases sp <;> simp [Range.fitsState, Fits]

theorem memRangesOk_iff (i : Instr) (s : State) :
    memRangesOk i s = true ↔ ∀ r ∈ ranges i s, r.space = .mem → Fits r := by
  simp only [memRangesOk, List.all_eq_true]
  refine forall_congr' fun r => imp_congr_right fun _ => ?_
  obtain ⟨sp, a, n⟩ := r
  cases sp <;> simp [Range.fitsMem, Fits]

theorem aliasingOk_iff (i : Instr) (s : State) : aliasingOk i s = true ↔ AliasAdmitted i s := by
  cases i <;>
    simp [aliasingOk, AliasAdmitted, IsAead, destination, sources, Range.aliasOk, identical_iff,
      ← overlaps_iff, or_comm]

theorem busOk_iff (i : Instr) (s : State) : busOk i s = true ↔ ∀ r ∈ ranges i s, Admitted s.cfg r := by
  simp [busOk, admitted_iff]

theorem memIdempotent_iff (i : Instr) (s : State) :
    memIdempotent i s = true ↔ ∀ r ∈ ranges i s, Idempotent s.cfg r := by
  simp [memIdempotent, idempotent_iff]

/-- A command has no validation error exactly if its four validation checks pass (R242). -/
theorem validationError_eq_none_iff (i : Instr) (s : State) : validationError i s = none ↔
    lengthOk i s = true ∧ stateRangesOk i s = true ∧ memRangesOk i s = true ∧ aliasingOk i s = true := by
  unfold validationError
  cases lengthOk i s <;> cases stateRangesOk i s <;> cases memRangesOk i s <;> cases aliasingOk i s <;> simp

/-- A command that runs normally passes every check. -/
theorem RunsNormally.checks {i : Instr} {s : State} (h : RunsNormally i s) :
    validationError i s = none ∧ busOk i s = true ∧ memIdempotent i s = true := by
  obtain ⟨hl, hr, ha⟩ := h
  exact ⟨(validationError_eq_none_iff i s).2 ⟨(lengthOk_iff i s).2 hl,
      (stateRangesOk_iff i s).2 fun r hm _ => (hr r hm).1, (memRangesOk_iff i s).2 fun r hm _ => (hr r hm).1,
      (aliasingOk_iff i s).2 ha⟩,
    (busOk_iff i s).2 fun r hm => (hr r hm).2.1, (memIdempotent_iff i s).2 fun r hm => (hr r hm).2.2⟩

/-- A command that runs normally has its own effect. -/
theorem runCommand_of_runsNormally {i : Instr} {s : State} (h : RunsNormally i s) (eff : State → State) :
    runCommand i eff s = eff s := by
  obtain ⟨h1, h2, h3⟩ := h.checks
  simp [runCommand, h1, h2, h3]

/-- Everything that running a command can do: a validation error, a bus error, an unspecified outcome over
memory with side effects, or its own effect (R242 to R244, R72). -/
theorem runCommand_cases (i : Instr) (eff : State → State) (s : State) :
    (∃ e, validationError i s = some e ∧ runCommand i eff s = s.complete e) ∨
    (validationError i s = none ∧ busOk i s = false ∧ runCommand i eff s = completeBus i (spoil i s)) ∨
    (validationError i s = none ∧ busOk i s = true ∧ memIdempotent i s = false ∧
      runCommand i eff s = completeSpoiled i (spoil i s)) ∨
    (validationError i s = none ∧ busOk i s = true ∧ memIdempotent i s = true ∧ runCommand i eff s = eff s) := by
  unfold runCommand
  cases validationError i s with
  | some e => exact .inl ⟨e, rfl, rfl⟩
  | none => cases busOk i s <;> cases memIdempotent i s <;> simp

/-- A validation error is one of four codes (R242). -/
theorem validationError_code {i : Instr} {s : State} {e : Code} (h : validationError i s = some e) :
    e = .len ∨ e = .stateRange ∨ e = .wrap ∨ e = .aliasing := by
  unfold validationError at h
  split at h
  · simp_all
  · split at h
    · simp_all
    · split at h
      · simp_all
      · split at h <;> simp_all

/-- A command without a validation error has every range inside its space (R64). -/
theorem fits_of_validationError_none {i : Instr} {s : State} (h : validationError i s = none) {r : Range}
    (hr : r ∈ ranges i s) : Fits r := by
  obtain ⟨-, h2, h3, -⟩ := (validationError_eq_none_iff i s).1 h
  rcases hsp : r.space with _ | _
  · exact (memRangesOk_iff i s).1 h3 r hr hsp
  · exact (stateRangesOk_iff i s).1 h2 r hr hsp

/-! ## Reading and writing a range -/

theorem length_readRange {s : State} {r : Range} (h : Fits r) : (s.readRange r).length = r.len := by
  obtain ⟨sp, a, n⟩ := r
  cases sp
  · simp [State.readRange]
  · exact length_bytesFrom _ h

/-- Byte `i` of `Read(sp, addr, n)` (R65). -/
theorem getD_readRange (s : State) (r : Range) {i : Nat} (h : i < r.len) :
    (s.readRange r).getD i 0 = byteIn s r.space (r.addr + i) := by
  obtain ⟨sp, a, n⟩ := r
  cases sp
  · exact Memory.getD_readBytes _ _ _ h
  · exact getD_bytesFrom _ _ _ h

/-- One byte after `Write(sp, addr, n, v)` (R65). -/
theorem byteIn_writeRange (s : State) (r : Range) (v : List Byte) (hv : v.length = r.len) (hf : Fits r)
    (sp : Space) (a : Nat) [Decidable (InRange r sp a)] :
    byteIn (s.writeRange r v) sp a = if InRange r sp a then v.getD (a - r.addr) 0 else byteIn s sp a := by
  obtain ⟨rs, ra, rn⟩ := r
  simp only at hv
  subst hv
  cases rs <;> cases sp
  · by_cases h : ra ≤ a ∧ a < ra + v.length
    · simp [InRange, State.writeRange, byteIn, Memory.read_writeBytes, h]
    · simp [InRange, State.writeRange, byteIn, Memory.read_writeBytes, h]
  · simp [InRange, State.writeRange, byteIn]
  · simp [InRange, State.writeRange, byteIn]
  · simp only [Fits] at hf
    by_cases h : ra ≤ a ∧ a < ra + v.length
    · have : a < 48 := by omega
      simp [InRange, State.writeRange, byteIn, byteAt_putBytes, h, this]
    · have h' : ¬ (ra ≤ a ∧ a < ra + v.length ∧ a < 48) := fun c => h ⟨c.1, c.2.1⟩
      simp only [InRange, State.writeRange, byteIn, State.setS_S, byteAt_putBytes, if_neg h', true_and, if_neg h]

/-- A byte inside the range after a write of it. -/
theorem byteIn_writeRange_inside (s : State) {r : Range} {v : List Byte} (hv : v.length = r.len) (hf : Fits r)
    {sp : Space} {a : Nat} (h : InRange r sp a) : byteIn (s.writeRange r v) sp a = v.getD (a - r.addr) 0 := by
  classical
  rw [byteIn_writeRange s r v hv hf sp a, if_pos h]

/-- A byte outside the range after a write of it. -/
theorem byteIn_writeRange_outside (s : State) {r : Range} {v : List Byte} (hv : v.length = r.len) (hf : Fits r)
    {sp : Space} {a : Nat} (h : ¬ InRange r sp a) : byteIn (s.writeRange r v) sp a = byteIn s sp a := by
  classical
  rw [byteIn_writeRange s r v hv hf sp a, if_neg h]

/-- A range that fits, read whole (R65). -/
theorem readRange_eq_map (s : State) {r : Range} (h : Fits r) :
    s.readRange r = (List.range r.len).map (fun k => byteIn s r.space (r.addr + k)) := by
  apply List.ext_getElem
  · simp [length_readRange h]
  · intro i h1 h2
    have := getD_readRange s r (i := i) (by rwa [length_readRange h] at h1)
    rw [List.getD_eq_getElem _ _ h1] at this
    simp [this]

/-- Completion changes no byte of memory or of S (R246). -/
@[simp] theorem byteIn_complete (s : State) (c : Code) (sp : Space) (a : Nat) :
    byteIn (s.complete c) sp a = byteIn s sp a := by
  cases sp <;> rfl

/-! ## What a write of a range leaves alone -/

@[simp] theorem State.writeRange_key (s : State) (r : Range) (v : List Byte) : (s.writeRange r v).key = s.key := by
  unfold State.writeRange; split <;> rfl

@[simp] theorem State.writeRange_ctx (s : State) (r : Range) (v : List Byte) : (s.writeRange r v).ctx = s.ctx := by
  unfold State.writeRange; split <;> rfl

@[simp] theorem State.writeRange_iv (s : State) (r : Range) (v : List Byte) : (s.writeRange r v).iv = s.iv := by
  unfold State.writeRange; split <;> rfl

@[simp] theorem State.writeRange_msgid (s : State) (r : Range) (v : List Byte) : (s.writeRange r v).msgid = s.msgid := by
  unfold State.writeRange; split <;> rfl

@[simp] theorem State.writeRange_len (s : State) (r : Range) (v : List Byte) : (s.writeRange r v).len = s.len := by
  unfold State.writeRange; split <;> rfl

@[simp] theorem State.writeRange_addrA (s : State) (r : Range) (v : List Byte) : (s.writeRange r v).addrA = s.addrA := by
  unfold State.writeRange; split <;> rfl

@[simp] theorem State.writeRange_addrB (s : State) (r : Range) (v : List Byte) : (s.writeRange r v).addrB = s.addrB := by
  unfold State.writeRange; split <;> rfl

@[simp] theorem State.writeRange_addrD (s : State) (r : Range) (v : List Byte) : (s.writeRange r v).addrD = s.addrD := by
  unfold State.writeRange; split <;> rfl

@[simp] theorem State.writeRange_cmpAcc (s : State) (r : Range) (v : List Byte) : (s.writeRange r v).cmpAcc = s.cmpAcc := by
  unfold State.writeRange; split <;> rfl

@[simp] theorem State.writeRange_ie (s : State) (r : Range) (v : List Byte) : (s.writeRange r v).ie = s.ie := by
  unfold State.writeRange; split <;> rfl

@[simp] theorem State.writeRange_busy (s : State) (r : Range) (v : List Byte) : (s.writeRange r v).busy = s.busy := by
  unfold State.writeRange; split <;> rfl

@[simp] theorem State.writeRange_done (s : State) (r : Range) (v : List Byte) : (s.writeRange r v).done = s.done := by
  unfold State.writeRange; split <;> rfl

@[simp] theorem State.writeRange_ovr (s : State) (r : Range) (v : List Byte) : (s.writeRange r v).ovr = s.ovr := by
  unfold State.writeRange; split <;> rfl

@[simp] theorem State.writeRange_errcode (s : State) (r : Range) (v : List Byte) : (s.writeRange r v).errcode = s.errcode := by
  unfold State.writeRange; split <;> rfl

@[simp] theorem State.writeRange_cmdl (s : State) (r : Range) (v : List Byte) : (s.writeRange r v).cmdl = s.cmdl := by
  unfold State.writeRange; split <;> rfl

@[simp] theorem State.writeRange_cfg (s : State) (r : Range) (v : List Byte) : (s.writeRange r v).cfg = s.cfg := by
  unfold State.writeRange; split <;> rfl

@[simp] theorem State.writeRange_pending (s : State) (r : Range) (v : List Byte) : (s.writeRange r v).pending = s.pending := by
  unfold State.writeRange; split <;> rfl

@[simp] theorem State.writeRange_hostWord (s : State) (r : Range) (v : List Byte) : (s.writeRange r v).hostWord = s.hostWord := by
  unfold State.writeRange; split <;> rfl

@[simp] theorem State.writeRange_hostByte (s : State) (r : Range) (v : List Byte) : (s.writeRange r v).hostByte = s.hostByte := by
  unfold State.writeRange; split <;> rfl

@[simp] theorem State.writeRange_draws (s : State) (r : Range) (v : List Byte) : (s.writeRange r v).draws = s.draws := by
  unfold State.writeRange; split <;> rfl

/-! ## What an unspecified outcome leaves alone -/

@[simp] theorem State.spoilRange_key (s : State) (r : Range) : (s.spoilRange r).key = s.key := by
  unfold State.spoilRange State.spoilS; split <;> simp

@[simp] theorem State.spoilRange_ctx (s : State) (r : Range) : (s.spoilRange r).ctx = s.ctx := by
  unfold State.spoilRange State.spoilS; split <;> simp

@[simp] theorem State.spoilRange_iv (s : State) (r : Range) : (s.spoilRange r).iv = s.iv := by
  unfold State.spoilRange State.spoilS; split <;> simp

@[simp] theorem State.spoilRange_msgid (s : State) (r : Range) : (s.spoilRange r).msgid = s.msgid := by
  unfold State.spoilRange State.spoilS; split <;> simp

@[simp] theorem State.spoilRange_len (s : State) (r : Range) : (s.spoilRange r).len = s.len := by
  unfold State.spoilRange State.spoilS; split <;> simp

@[simp] theorem State.spoilRange_addrA (s : State) (r : Range) : (s.spoilRange r).addrA = s.addrA := by
  unfold State.spoilRange State.spoilS; split <;> simp

@[simp] theorem State.spoilRange_addrB (s : State) (r : Range) : (s.spoilRange r).addrB = s.addrB := by
  unfold State.spoilRange State.spoilS; split <;> simp

@[simp] theorem State.spoilRange_addrD (s : State) (r : Range) : (s.spoilRange r).addrD = s.addrD := by
  unfold State.spoilRange State.spoilS; split <;> simp

@[simp] theorem State.spoilRange_cmpAcc (s : State) (r : Range) : (s.spoilRange r).cmpAcc = s.cmpAcc := by
  unfold State.spoilRange State.spoilS; split <;> simp

@[simp] theorem State.spoilRange_ie (s : State) (r : Range) : (s.spoilRange r).ie = s.ie := by
  unfold State.spoilRange State.spoilS; split <;> simp

@[simp] theorem State.spoilRange_busy (s : State) (r : Range) : (s.spoilRange r).busy = s.busy := by
  unfold State.spoilRange State.spoilS; split <;> simp

@[simp] theorem State.spoilRange_done (s : State) (r : Range) : (s.spoilRange r).done = s.done := by
  unfold State.spoilRange State.spoilS; split <;> simp

@[simp] theorem State.spoilRange_ovr (s : State) (r : Range) : (s.spoilRange r).ovr = s.ovr := by
  unfold State.spoilRange State.spoilS; split <;> simp

@[simp] theorem State.spoilRange_errcode (s : State) (r : Range) : (s.spoilRange r).errcode = s.errcode := by
  unfold State.spoilRange State.spoilS; split <;> simp

@[simp] theorem State.spoilRange_cmdl (s : State) (r : Range) : (s.spoilRange r).cmdl = s.cmdl := by
  unfold State.spoilRange State.spoilS; split <;> simp

@[simp] theorem State.spoilRange_cfg (s : State) (r : Range) : (s.spoilRange r).cfg = s.cfg := by
  unfold State.spoilRange State.spoilS; split <;> simp

@[simp] theorem State.spoilRange_pending (s : State) (r : Range) : (s.spoilRange r).pending = s.pending := by
  unfold State.spoilRange State.spoilS; split <;> simp

@[simp] theorem State.spoilRange_hostWord (s : State) (r : Range) : (s.spoilRange r).hostWord = s.hostWord := by
  unfold State.spoilRange State.spoilS; split <;> simp

@[simp] theorem State.spoilRange_hostByte (s : State) (r : Range) : (s.spoilRange r).hostByte = s.hostByte := by
  unfold State.spoilRange State.spoilS; split <;> simp

@[simp] theorem spoil_key (i : Instr) (s : State) : (spoil i s).key = s.key := by
  cases i <;> simp [spoil, State.spoilS, State.spoilCmpAcc]

@[simp] theorem spoil_ctx (i : Instr) (s : State) : (spoil i s).ctx = s.ctx := by
  cases i <;> simp [spoil, State.spoilS, State.spoilCmpAcc]

@[simp] theorem spoil_iv (i : Instr) (s : State) : (spoil i s).iv = s.iv := by
  cases i <;> simp [spoil, State.spoilS, State.spoilCmpAcc]

@[simp] theorem spoil_msgid (i : Instr) (s : State) : (spoil i s).msgid = s.msgid := by
  cases i <;> simp [spoil, State.spoilS, State.spoilCmpAcc]

@[simp] theorem spoil_len (i : Instr) (s : State) : (spoil i s).len = s.len := by
  cases i <;> simp [spoil, State.spoilS, State.spoilCmpAcc]

@[simp] theorem spoil_addrA (i : Instr) (s : State) : (spoil i s).addrA = s.addrA := by
  cases i <;> simp [spoil, State.spoilS, State.spoilCmpAcc]

@[simp] theorem spoil_addrB (i : Instr) (s : State) : (spoil i s).addrB = s.addrB := by
  cases i <;> simp [spoil, State.spoilS, State.spoilCmpAcc]

@[simp] theorem spoil_addrD (i : Instr) (s : State) : (spoil i s).addrD = s.addrD := by
  cases i <;> simp [spoil, State.spoilS, State.spoilCmpAcc]

@[simp] theorem spoil_ie (i : Instr) (s : State) : (spoil i s).ie = s.ie := by
  cases i <;> simp [spoil, State.spoilS, State.spoilCmpAcc]

@[simp] theorem spoil_busy (i : Instr) (s : State) : (spoil i s).busy = s.busy := by
  cases i <;> simp [spoil, State.spoilS, State.spoilCmpAcc]

@[simp] theorem spoil_done (i : Instr) (s : State) : (spoil i s).done = s.done := by
  cases i <;> simp [spoil, State.spoilS, State.spoilCmpAcc]

@[simp] theorem spoil_ovr (i : Instr) (s : State) : (spoil i s).ovr = s.ovr := by
  cases i <;> simp [spoil, State.spoilS, State.spoilCmpAcc]

@[simp] theorem spoil_errcode (i : Instr) (s : State) : (spoil i s).errcode = s.errcode := by
  cases i <;> simp [spoil, State.spoilS, State.spoilCmpAcc]

@[simp] theorem spoil_cmdl (i : Instr) (s : State) : (spoil i s).cmdl = s.cmdl := by
  cases i <;> simp [spoil, State.spoilS, State.spoilCmpAcc]

@[simp] theorem spoil_cfg (i : Instr) (s : State) : (spoil i s).cfg = s.cfg := by
  cases i <;> simp [spoil, State.spoilS, State.spoilCmpAcc]

@[simp] theorem spoil_pending (i : Instr) (s : State) : (spoil i s).pending = s.pending := by
  cases i <;> simp [spoil, State.spoilS, State.spoilCmpAcc]

@[simp] theorem spoil_hostWord (i : Instr) (s : State) : (spoil i s).hostWord = s.hostWord := by
  cases i <;> simp [spoil, State.spoilS, State.spoilCmpAcc]

@[simp] theorem spoil_hostByte (i : Instr) (s : State) : (spoil i s).hostByte = s.hostByte := by
  cases i <;> simp [spoil, State.spoilS, State.spoilCmpAcc]
theorem writeRange_S_of_mem (s : State) {r : Range} (v : List Byte) (h : r.space = .mem) :
    (s.writeRange r v).S = s.S := by
  simp [State.writeRange, h]

theorem writeRange_mem_of_state (s : State) {r : Range} (v : List Byte) (h : r.space = .state) :
    (s.writeRange r v).mem = s.mem := by
  simp [State.writeRange, h]

/-- A free destination changes data memory only inside the range (R244). -/
theorem read_spoilRange (s : State) (r : Range) (a : Nat) (h : ¬ InRange r .mem a) :
    (s.spoilRange r).mem.read a = s.mem.read a := by
  obtain ⟨sp, ra, n⟩ := r
  cases sp
  · have : ¬ (ra ≤ a ∧ a < ra + n) := by simpa [InRange] using h
    simp [State.spoilRange, Memory.read_writeBytes, this]
  · simp [State.spoilRange, State.spoilS]

/-- A free destination inside its space keeps memory in its canonical form. -/
theorem wf_spoilRange (s : State) (r : Range) (hm : s.mem.wf = true) (h : Fits r) :
    (s.spoilRange r).mem.wf = true := by
  obtain ⟨sp, ra, n⟩ := r
  cases sp
  · simp only [State.spoilRange, State.countDraws_mem, State.setMem_mem]
    exact Memory.wf_writeBytes hm (by simpa [Fits] using h)
  · simpa [State.spoilRange, State.spoilS] using hm

/-- An unspecified outcome changes data memory only inside the command's destination range (R244). -/
theorem read_spoil (i : Instr) (s : State) (a : Nat)
    (h : ∀ d, destination i s = some d → ¬ InRange d .mem a) : (spoil i s).mem.read a = s.mem.read a := by
  cases i <;>
    first
    | (simp only [destination, Option.some.injEq, forall_eq'] at h
       simp [spoil, State.spoilS, read_spoilRange _ _ _ h])
    | simp [spoil, State.spoilS, State.spoilCmpAcc]

/-- An unspecified outcome of a command with valid ranges keeps memory in its canonical form. -/
theorem wf_spoil (i : Instr) (s : State) (hm : s.mem.wf = true)
    (hf : ∀ d, destination i s = some d → Fits d) : (spoil i s).mem.wf = true := by
  cases i <;>
    first
    | (simp only [destination, Option.some.injEq, forall_eq'] at hf
       simp [spoil, State.spoilS, wf_spoilRange _ _ hm hf])
    | simp [spoil, State.spoilS, State.spoilCmpAcc, hm]

/-- A write of a fitting range keeps memory in its canonical form. -/
theorem wf_writeRange (s : State) (r : Range) (v : List Byte) (hm : s.mem.wf = true) (hf : Fits r)
    (hv : v.length = r.len) : (s.writeRange r v).mem.wf = true := by
  obtain ⟨sp, ra, n⟩ := r
  simp only at hv
  cases sp
  · simp only [State.writeRange, State.setMem_mem]
    exact Memory.wf_writeBytes hm (by rw [hv]; exact hf)
  · simpa [State.writeRange] using hm

/-- The spec's byte-by-byte XOR is `xorInto` (42_sponge.md). -/
theorem xorInto_eq_xorRange (v : Bytes 48) (a : Nat) (bs : List Byte) (h : a + bs.length ≤ 48) :
    xorInto v a bs = xorRange v a bs.length (fun j => bs.getD j 0) := by
  apply bytes_ext
  intro i hi
  rw [byteAt_xorInto v a bs h, xorRange, byteAt_ofFn _ hi]

end Sys2Proof.Machine
end

