-- ==== Sys2Proof/Laws/Exec.lean ====
section
/-! SUPPORT. What perform can do, said once for all fourteen commands: `exec` is `runCommand` of the
command's own effect, so that a rule over all commands is one case analysis (`runCommand_cases`) and
one lemma about the effects. -/

namespace Sys2Proof.Machine

/-- The effect of a command whose checks have passed. -/
def ownEffect (i : Instr) (s : State) : State :=
  match i with
  | .permute tag => (s.setS (perm s.S tag)).complete .ok
  | .zero dsp => (s.writeRange (s.rangeD dsp s.len.toNat) (zeros s.len.toNat)).complete .ok
  | .copy asp dsp =>
    (s.writeRange (s.rangeD dsp s.len.toNat) (s.readRange (s.rangeA asp s.len.toNat))).complete .ok
  | .xor asp dsp =>
    (s.writeRange (s.rangeD dsp s.len.toNat) (xorBytes (s.readRange (s.rangeA asp s.len.toNat))
      (s.readRange (s.rangeD dsp s.len.toNat)))).complete .ok
  | .xor2 asp bsp dsp =>
    (s.writeRange (s.rangeD dsp s.len.toNat) (xorBytes (s.readRange (s.rangeA asp s.len.toNat))
      (s.readRange (s.rangeB bsp s.len.toNat)))).complete .ok
  | .cmp asp bsp =>
    (s.setCmpAcc (ctCmp (s.readRange (s.rangeA asp s.len.toNat))
      (s.readRange (s.rangeB bsp s.len.toNat)))).complete .ok
  | .setup tag => (s.setS (setup s.cfg s.key.toList s.ctx.toList s.iv.toList s.msgid tag)).complete .ok
  | .finalize tag => (s.setS (finalize s.S s.key.toList tag)).complete .ok
  | .pad pos dom => (s.setS (pad s.S pos dom)).complete .ok
  | .absorb tag dom => (s.setS (absorb s.S (s.readRange (s.rangeA .mem s.len.toNat)) tag dom)).complete .ok
  | .encstream tag dom =>
    ((s.setS (encStream s.S (s.readRange (s.rangeA .mem s.len.toNat)) tag dom).1).writeRange
      (s.rangeD .mem s.len.toNat)
      (encStream s.S (s.readRange (s.rangeA .mem s.len.toNat)) tag dom).2).complete .ok
  | .decstream tag dom =>
    ((s.setS (decStream s.S (s.readRange (s.rangeA .mem s.len.toNat)) tag dom).1).writeRange
      (s.rangeD .mem s.len.toNat)
      (decStream s.S (s.readRange (s.rangeA .mem s.len.toNat)) tag dom).2).complete .ok
  | .aeadEnc =>
    ((s.writeRange (s.rangeD .mem (s.len.toNat + 36))
      (aeadEncrypt s.cfg s.key.toList s.ctx.toList s.iv.toList s.msgid
        (s.readRange (s.rangeA .mem s.len.toNat)))).setS zeroState).complete .ok
  | .aeadDec =>
    ((s.writeRange (s.rangeD .mem (s.len.toNat - 36))
      (aeadDecrypt s.cfg s.key.toList s.ctx.toList s.msgid
        (s.readRange (s.rangeA .mem s.len.toNat))).2).setS zeroState).complete
      (aeadDecrypt s.cfg s.key.toList s.ctx.toList s.msgid (s.readRange (s.rangeA .mem s.len.toNat))).1

/-- Perform of any command is `runCommand` of its own effect. -/
theorem exec_eq (i : Instr) (s : State) : exec i s = .next (runCommand i (ownEffect i) s) := by
  cases i <;> rfl

/-- The checks of a command without a range always pass. -/
theorem runsNormally_of_no_range {i : Instr} {s : State} (hd : i ≠ .aeadDec) (hr : ranges i s = []) :
    RunsNormally i s := by
  refine ⟨fun h => absurd h hd, by simp [hr], fun d hdst => ?_⟩
  simp [ranges, hdst] at hr

/-- A command that runs normally has its own effect, as a next state. -/
theorem exec_of_runsNormally {i : Instr} {s : State} (h : RunsNormally i s) :
    exec i s = .next (ownEffect i s) := by
  rw [exec_eq, runCommand_of_runsNormally h]

/-- Every range of a command that runs normally fits in its space. -/
theorem RunsNormally.fits {i : Instr} {s : State} (h : RunsNormally i s) {r : Range} (hr : r ∈ ranges i s) :
    Fits r := (h.2.1 r hr).1

/-- A command runs normally exactly if every check passes. -/
theorem runsNormally_iff (i : Instr) (s : State) :
    RunsNormally i s ↔ validationError i s = none ∧ busOk i s = true ∧ memIdempotent i s = true := by
  refine ⟨RunsNormally.checks, fun ⟨hv, hb, hm⟩ => ?_⟩
  obtain ⟨hl, -, -, ha⟩ := (validationError_eq_none_iff i s).1 hv
  exact ⟨(lengthOk_iff i s).1 hl, fun r hr => ⟨fits_of_validationError_none hv hr, (busOk_iff i s).1 hb r hr,
    (memIdempotent_iff i s).1 hm r hr⟩, (aliasingOk_iff i s).1 ha⟩

/-- Everything that perform of a command can do (60_exceptions.md R242 to R244, 20_memory.md R72): a validation
error, a bus error, an unspecified outcome over memory with side effects, or the command's own effect. -/
theorem exec_cases {i : Instr} {s t : State} (h : exec i s = .next t) :
    (∃ e, validationError i s = some e ∧ t = s.complete e) ∨
    (validationError i s = none ∧ busOk i s = false ∧ t = completeBus i (spoil i s)) ∨
    (validationError i s = none ∧ busOk i s = true ∧ memIdempotent i s = false ∧
      t = completeSpoiled i (spoil i s)) ∨
    (RunsNormally i s ∧ t = ownEffect i s) := by
  rw [exec_eq] at h
  injection h with h
  subst h
  rcases runCommand_cases i (ownEffect i) s with ⟨e, hv, h⟩ | ⟨hv, hb, h⟩ | ⟨hv, hb, hm, h⟩ | ⟨hv, hb, hm, h⟩ <;>
    rw [h]
  · exact .inl ⟨e, hv, rfl⟩
  · exact .inr (.inl ⟨hv, hb, rfl⟩)
  · exact .inr (.inr (.inl ⟨hv, hb, hm, rfl⟩))
  · exact .inr (.inr (.inr ⟨(runsNormally_iff i s).2 ⟨hv, hb, hm⟩, rfl⟩))

/-! ## The lengths of the streams -/

theorem length_encBlocks (tag : Byte) (dom : BitVec 7) (q : Nat) (v : Bytes 48) (m : List Byte)
    (h : m.length / 16 = q) : (encBlocks tag dom q v m).2.length = m.length := by
  induction q generalizing v m with
  | zero =>
    have : m.length < 16 := by omega
    simp only [encBlocks, length_xorBytes]
    rw [length_bytesFrom _ (by omega)]
    simp
  | succ q ih =>
    have hd : (m.drop 16).length / 16 = q := by rw [List.length_drop]; omega
    simp only [encBlocks, List.length_append, ih _ _ hd, length_xorBytes, List.length_take, List.length_drop]
    rw [length_bytesFrom _ (by omega)]
    omega

theorem length_decBlocks (tag : Byte) (dom : BitVec 7) (q : Nat) (v : Bytes 48) (c : List Byte)
    (h : c.length / 16 = q) : (decBlocks tag dom q v c).2.length = c.length := by
  induction q generalizing v c with
  | zero =>
    have : c.length < 16 := by omega
    simp only [decBlocks, length_xorBytes]
    rw [length_bytesFrom _ (by omega)]
    simp
  | succ q ih =>
    have hd : (c.drop 16).length / 16 = q := by rw [List.length_drop]; omega
    simp only [decBlocks, List.length_append, ih _ _ hd, length_xorBytes, List.length_take, List.length_drop]
    rw [length_bytesFrom _ (by omega)]
    omega

theorem length_encStream (v : Bytes 48) (m : List Byte) (tag : Byte) (dom : BitVec 7) :
    (encStream v m tag dom).2.length = m.length := length_encBlocks _ _ _ _ _ rfl

theorem length_decStream (v : Bytes 48) (c : List Byte) (tag : Byte) (dom : BitVec 7) :
    (decStream v c tag dom).2.length = c.length := length_decBlocks _ _ _ _ _ rfl

theorem length_deriveSiv (c : Config) (key ctx iv : List Byte) (mid : BitVec 64) (m : List Byte) :
    (deriveSiv c key ctx iv mid m).length = 20 := length_bytesFrom _ (by omega)

theorem length_streamTag (c : Config) (key : List Byte) (v : Bytes 48) :
    (streamTag c key v).length = 16 := length_bytesFrom _ (by omega)

theorem length_aeadEncrypt (c : Config) (key ctx iv : List Byte) (mid : BitVec 64) (m : List Byte) :
    (aeadEncrypt c key ctx iv mid m).length = m.length + 36 := by
  simp only [aeadEncrypt, List.length_append, length_deriveSiv, length_streamTag, length_encStream]
  omega

/-- AeadDec with a matching tag gives OK and the plaintext (43_aead.md R217). -/
theorem aeadDecrypt_of_match {c : Config} {key ctx : List Byte} {mid : BitVec 64} {ct : List Byte}
    {p : Bytes 48 × List Byte}
    (hp : decStream (setup c key ctx (ct.take 20) mid c.tagKey) (ct.drop 36) c.tagPayload c.domAead = p)
    (h : ctCmp (streamTag c key p.1) ((ct.drop 20).take 16) = 0) : aeadDecrypt c key ctx mid ct = (.ok, p.2) := by
  simp only [aeadDecrypt, hp, if_pos h]

/-- AeadDec with a tag that differs gives AUTH and zeros (43_aead.md R217). -/
theorem aeadDecrypt_of_mismatch {c : Config} {key ctx : List Byte} {mid : BitVec 64} {ct : List Byte}
    {p : Bytes 48 × List Byte}
    (hp : decStream (setup c key ctx (ct.take 20) mid c.tagKey) (ct.drop 36) c.tagPayload c.domAead = p)
    (h : ctCmp (streamTag c key p.1) ((ct.drop 20).take 16) ≠ 0) :
    aeadDecrypt c key ctx mid ct = (.auth, zeros (ct.length - 36)) := by
  simp only [aeadDecrypt, hp, if_neg h, List.length_drop]

theorem length_aeadDecrypt (c : Config) (key ctx : List Byte) (mid : BitVec 64) (ct : List Byte) :
    (aeadDecrypt c key ctx mid ct).2.length = ct.length - 36 := by
  simp only [aeadDecrypt]
  split <;> simp [length_decStream]

/-! ## What a command's own effect leaves alone -/

@[simp] theorem ownEffect_key (i : Instr) (s : State) : (ownEffect i s).key = s.key := by
  cases i <;> simp [ownEffect]

@[simp] theorem ownEffect_ctx (i : Instr) (s : State) : (ownEffect i s).ctx = s.ctx := by
  cases i <;> simp [ownEffect]

@[simp] theorem ownEffect_iv (i : Instr) (s : State) : (ownEffect i s).iv = s.iv := by
  cases i <;> simp [ownEffect]

@[simp] theorem ownEffect_msgid (i : Instr) (s : State) : (ownEffect i s).msgid = s.msgid := by
  cases i <;> simp [ownEffect]

@[simp] theorem ownEffect_len (i : Instr) (s : State) : (ownEffect i s).len = s.len := by
  cases i <;> simp [ownEffect]

@[simp] theorem ownEffect_addrA (i : Instr) (s : State) : (ownEffect i s).addrA = s.addrA := by
  cases i <;> simp [ownEffect]

@[simp] theorem ownEffect_addrB (i : Instr) (s : State) : (ownEffect i s).addrB = s.addrB := by
  cases i <;> simp [ownEffect]

@[simp] theorem ownEffect_addrD (i : Instr) (s : State) : (ownEffect i s).addrD = s.addrD := by
  cases i <;> simp [ownEffect]

@[simp] theorem ownEffect_ie (i : Instr) (s : State) : (ownEffect i s).ie = s.ie := by
  cases i <;> simp [ownEffect]

@[simp] theorem ownEffect_ovr (i : Instr) (s : State) : (ownEffect i s).ovr = s.ovr := by
  cases i <;> simp [ownEffect]

@[simp] theorem ownEffect_cmdl (i : Instr) (s : State) : (ownEffect i s).cmdl = s.cmdl := by
  cases i <;> simp [ownEffect]

@[simp] theorem ownEffect_cfg (i : Instr) (s : State) : (ownEffect i s).cfg = s.cfg := by
  cases i <;> simp [ownEffect]

@[simp] theorem ownEffect_pending (i : Instr) (s : State) : (ownEffect i s).pending = s.pending := by
  cases i <;> simp [ownEffect]

@[simp] theorem ownEffect_hostWord (i : Instr) (s : State) : (ownEffect i s).hostWord = s.hostWord := by
  cases i <;> simp [ownEffect]

@[simp] theorem ownEffect_hostByte (i : Instr) (s : State) : (ownEffect i s).hostByte = s.hostByte := by
  cases i <;> simp [ownEffect]

/-! ## What completion with BUS, and over memory with side effects, leaves alone -/

@[simp] theorem completeBus_key (i : Instr) (s : State) : (completeBus i s).key = s.key := by
  cases i <;> rfl

@[simp] theorem completeBus_ctx (i : Instr) (s : State) : (completeBus i s).ctx = s.ctx := by
  cases i <;> rfl

@[simp] theorem completeBus_iv (i : Instr) (s : State) : (completeBus i s).iv = s.iv := by
  cases i <;> rfl

@[simp] theorem completeBus_msgid (i : Instr) (s : State) : (completeBus i s).msgid = s.msgid := by
  cases i <;> rfl

@[simp] theorem completeBus_len (i : Instr) (s : State) : (completeBus i s).len = s.len := by
  cases i <;> rfl

@[simp] theorem completeBus_addrA (i : Instr) (s : State) : (completeBus i s).addrA = s.addrA := by
  cases i <;> rfl

@[simp] theorem completeBus_addrB (i : Instr) (s : State) : (completeBus i s).addrB = s.addrB := by
  cases i <;> rfl

@[simp] theorem completeBus_addrD (i : Instr) (s : State) : (completeBus i s).addrD = s.addrD := by
  cases i <;> rfl

@[simp] theorem completeBus_cmpAcc (i : Instr) (s : State) : (completeBus i s).cmpAcc = s.cmpAcc := by
  cases i <;> rfl

@[simp] theorem completeBus_ie (i : Instr) (s : State) : (completeBus i s).ie = s.ie := by
  cases i <;> rfl

@[simp] theorem completeBus_ovr (i : Instr) (s : State) : (completeBus i s).ovr = s.ovr := by
  cases i <;> rfl

@[simp] theorem completeBus_cmdl (i : Instr) (s : State) : (completeBus i s).cmdl = s.cmdl := by
  cases i <;> rfl

@[simp] theorem completeBus_mem (i : Instr) (s : State) : (completeBus i s).mem = s.mem := by
  cases i <;> rfl

@[simp] theorem completeBus_cfg (i : Instr) (s : State) : (completeBus i s).cfg = s.cfg := by
  cases i <;> rfl

@[simp] theorem completeBus_pending (i : Instr) (s : State) : (completeBus i s).pending = s.pending := by
  cases i <;> rfl

@[simp] theorem completeBus_hostWord (i : Instr) (s : State) : (completeBus i s).hostWord = s.hostWord := by
  cases i <;> rfl

@[simp] theorem completeBus_hostByte (i : Instr) (s : State) : (completeBus i s).hostByte = s.hostByte := by
  cases i <;> rfl

@[simp] theorem completeBus_draws (i : Instr) (s : State) : (completeBus i s).draws = s.draws := by
  cases i <;> rfl

@[simp] theorem completeBus_errcode (i : Instr) (s : State) : (completeBus i s).errcode = .bus := by
  cases i <;> rfl

@[simp] theorem completeBus_busy (i : Instr) (s : State) : (completeBus i s).busy = false := by
  cases i <;> rfl

@[simp] theorem completeBus_done (i : Instr) (s : State) : (completeBus i s).done = true := by
  cases i <;> rfl

/-- After BUS, S is zero for the AEAD commands (60_exceptions.md R244, U1). -/
theorem completeBus_S_of_aead {i : Instr} (h : IsAead i) (s : State) : (completeBus i s).S = zeroState := by
  rcases h with rfl | rfl <;> rfl

/-- Completion with BUS does not touch S otherwise (60_exceptions.md R244). -/
theorem completeBus_S_of_not_aead {i : Instr} (h : ¬ IsAead i) (s : State) : (completeBus i s).S = s.S := by
  cases i <;> first | rfl | exact absurd (by simp [IsAead]) h

@[simp] theorem completeSpoiled_key (i : Instr) (s : State) : (completeSpoiled i s).key = s.key := by
  cases i <;> rfl

@[simp] theorem completeSpoiled_ctx (i : Instr) (s : State) : (completeSpoiled i s).ctx = s.ctx := by
  cases i <;> rfl

@[simp] theorem completeSpoiled_iv (i : Instr) (s : State) : (completeSpoiled i s).iv = s.iv := by
  cases i <;> rfl

@[simp] theorem completeSpoiled_msgid (i : Instr) (s : State) : (completeSpoiled i s).msgid = s.msgid := by
  cases i <;> rfl

@[simp] theorem completeSpoiled_len (i : Instr) (s : State) : (completeSpoiled i s).len = s.len := by
  cases i <;> rfl

@[simp] theorem completeSpoiled_addrA (i : Instr) (s : State) : (completeSpoiled i s).addrA = s.addrA := by
  cases i <;> rfl

@[simp] theorem completeSpoiled_addrB (i : Instr) (s : State) : (completeSpoiled i s).addrB = s.addrB := by
  cases i <;> rfl

@[simp] theorem completeSpoiled_addrD (i : Instr) (s : State) : (completeSpoiled i s).addrD = s.addrD := by
  cases i <;> rfl

@[simp] theorem completeSpoiled_ie (i : Instr) (s : State) : (completeSpoiled i s).ie = s.ie := by
  cases i <;> rfl

@[simp] theorem completeSpoiled_ovr (i : Instr) (s : State) : (completeSpoiled i s).ovr = s.ovr := by
  cases i <;> rfl

@[simp] theorem completeSpoiled_cmdl (i : Instr) (s : State) : (completeSpoiled i s).cmdl = s.cmdl := by
  cases i <;> rfl

@[simp] theorem completeSpoiled_cfg (i : Instr) (s : State) : (completeSpoiled i s).cfg = s.cfg := by
  cases i <;> rfl

@[simp] theorem completeSpoiled_pending (i : Instr) (s : State) : (completeSpoiled i s).pending = s.pending := by
  cases i <;> rfl

@[simp] theorem completeSpoiled_hostWord (i : Instr) (s : State) : (completeSpoiled i s).hostWord = s.hostWord := by
  cases i <;> rfl

@[simp] theorem completeSpoiled_hostByte (i : Instr) (s : State) : (completeSpoiled i s).hostByte = s.hostByte := by
  cases i <;> rfl

@[simp] theorem completeSpoiled_S (i : Instr) (s : State) : (completeSpoiled i s).S = s.S := by
  cases i <;> rfl

@[simp] theorem completeSpoiled_mem (i : Instr) (s : State) : (completeSpoiled i s).mem = s.mem := by
  cases i <;> rfl

@[simp] theorem completeSpoiled_cmpAcc (i : Instr) (s : State) : (completeSpoiled i s).cmpAcc = s.cmpAcc := by
  cases i <;> rfl

end Sys2Proof.Machine
end

