-- ==== Sys2Proof/Laws/PerInstr.lean ====
section
/-! SUPPORT. Statements about every command as syntax, one lemma per constructor. -/

namespace Sys2Proof.Laws.EncodesInRow

/-- The encoding of a command lies in the command's own row of the opcode map (30_encoding.md R94). -/
def Statement (i : Instr) : Prop := encode i &&& i.opcode.mask = i.opcode.matchWord

theorem permute (tag : Byte) : Statement (.permute tag) := by
  apply BitVec.eq_of_getLsbD_eq
  intro i hi
  interval_cases i <;>
    simp [encode, fieldsToWord, fieldsToWord.bitOfSpace, Instr.opcode, Opcode.mask, Opcode.matchWord]

theorem zero (dsp : Space) : Statement (.zero dsp) := by
  cases dsp <;> rfl

theorem copy (asp : Space) (dsp : Space) : Statement (.copy asp dsp) := by
  cases asp <;> cases dsp <;> rfl

theorem xor (asp : Space) (dsp : Space) : Statement (.xor asp dsp) := by
  cases asp <;> cases dsp <;> rfl

theorem xor2 (asp : Space) (bsp : Space) (dsp : Space) : Statement (.xor2 asp bsp dsp) := by
  cases asp <;> cases bsp <;> cases dsp <;> rfl

theorem cmp (asp : Space) (bsp : Space) : Statement (.cmp asp bsp) := by
  cases asp <;> cases bsp <;> rfl

theorem setup (tag : Byte) : Statement (.setup tag) := by
  apply BitVec.eq_of_getLsbD_eq
  intro i hi
  interval_cases i <;>
    simp [encode, fieldsToWord, fieldsToWord.bitOfSpace, Instr.opcode, Opcode.mask, Opcode.matchWord]

theorem finalize (tag : Byte) : Statement (.finalize tag) := by
  apply BitVec.eq_of_getLsbD_eq
  intro i hi
  interval_cases i <;>
    simp [encode, fieldsToWord, fieldsToWord.bitOfSpace, Instr.opcode, Opcode.mask, Opcode.matchWord]

theorem pad (pos : Nat) (dom : BitVec 7) : Statement (.pad pos dom) := by
  apply BitVec.eq_of_getLsbD_eq
  intro i hi
  interval_cases i <;>
    simp [encode, fieldsToWord, fieldsToWord.bitOfSpace, Instr.opcode, Opcode.mask, Opcode.matchWord]

theorem absorb (tag : Byte) (dom : BitVec 7) : Statement (.absorb tag dom) := by
  apply BitVec.eq_of_getLsbD_eq
  intro i hi
  interval_cases i <;>
    simp [encode, fieldsToWord, fieldsToWord.bitOfSpace, Instr.opcode, Opcode.mask, Opcode.matchWord]

theorem encstream (tag : Byte) (dom : BitVec 7) : Statement (.encstream tag dom) := by
  apply BitVec.eq_of_getLsbD_eq
  intro i hi
  interval_cases i <;>
    simp [encode, fieldsToWord, fieldsToWord.bitOfSpace, Instr.opcode, Opcode.mask, Opcode.matchWord]

theorem decstream (tag : Byte) (dom : BitVec 7) : Statement (.decstream tag dom) := by
  apply BitVec.eq_of_getLsbD_eq
  intro i hi
  interval_cases i <;>
    simp [encode, fieldsToWord, fieldsToWord.bitOfSpace, Instr.opcode, Opcode.mask, Opcode.matchWord]

theorem aeadEnc : Statement .aeadEnc := rfl

theorem aeadDec : Statement .aeadDec := rfl

end Sys2Proof.Laws.EncodesInRow
end

