-- ==== Sys2Proof/Laws/Registers.lean ====
section
/-! SUPPORT. The register block: one word of a written byte field, which offset names which register, and
what a host access that is not refused is. -/

namespace Sys2Proof.Machine

/-- One byte of a byte field after a write to one of its registers (10_state.md R23). -/
theorem byteAt_putWord {n : Nat} (v : Bytes n) (k : Nat) (w : Word) (j : Nat) :
    byteAt (putWord v k w) j =
      if 4 * k ≤ j ∧ j < 4 * k + 4 ∧ j < n then wordByte w (j - 4 * k) else byteAt v j := by
  rw [putWord, byteAt_putBytes]
  rw [show 4 * k + [wordByte w 0, wordByte w 1, wordByte w 2, wordByte w 3].length = 4 * k + 4 from rfl]
  split
  · rename_i h
    have : j - 4 * k = 0 ∨ j - 4 * k = 1 ∨ j - 4 * k = 2 ∨ j - 4 * k = 3 := by omega
    rcases this with h | h | h | h <;> simp [h]
  · rfl

/-- A word of a byte field depends only on its four bytes. -/
theorem wordAt_congr {n : Nat} {v w : Bytes n} {k : Nat}
    (h : ∀ j, 4 * k ≤ j → j < 4 * k + 4 → byteAt v j = byteAt w j) : wordAt v k = wordAt w k := by
  unfold wordAt
  rw [h _ (by omega) (by omega), h _ (by omega) (by omega), h _ (by omega) (by omega), h _ (by omega) (by omega)]

/-- Byte `i` of a byte field lies in register `i / 4` at bits [8(i mod 4)+7 : 8(i mod 4)] (10_state.md R31 to
R34). -/
theorem byte_of_wordAt {n : Nat} (v : Bytes n) (i : Nat) :
    (wordAt v (i / 4)).extractLsb' (8 * (i % 4)) 8 = byteAt v i := by
  have h : ∀ j, j < 4 → (wordAt v (i / 4)).extractLsb' (8 * j) 8 = byteAt v (4 * (i / 4) + j) := by
    intro j hj
    obtain ⟨h0, h1, h2, h3⟩ := wordByte_le32 (byteAt v (4 * (i / 4))) (byteAt v (4 * (i / 4) + 1))
      (byteAt v (4 * (i / 4) + 2)) (byteAt v (4 * (i / 4) + 3))
    have : j = 0 ∨ j = 1 ∨ j = 2 ∨ j = 3 := by omega
    rcases this with rfl | rfl | rfl | rfl <;> assumption
  rw [h _ (by omega)]
  congr 1
  omega

/-- One register of a byte field after a write to one of them (10_state.md R23). -/
theorem wordAt_putWord {n : Nat} (v : Bytes n) (k l : Nat) (w : Word) (hk : 4 * k + 4 ≤ n) :
    wordAt (putWord v k w) l = if l = k then w else wordAt v l := by
  split
  · rename_i h
    subst h
    simp only [wordAt, byteAt_putWord]
    rw [if_pos (by omega), if_pos (by omega), if_pos (by omega), if_pos (by omega)]
    rw [show 4 * l - 4 * l = 0 by omega, show 4 * l + 1 - 4 * l = 1 by omega,
      show 4 * l + 2 - 4 * l = 2 by omega, show 4 * l + 3 - 4 * l = 3 by omega]
    exact le32_wordByte w
  · exact wordAt_congr fun j h1 h2 => by rw [byteAt_putWord, if_neg (by omega)]

/-- The offset of a register of the block (10_state.md R23); reserved offsets have no one register. -/
def Reg.offset? (r : Reg) : Option Nat :=
  match r with
  | .ctrl => some 0x000
  | .status => some 0x004
  | .cmd => some 0x008
  | .len => some 0x00C
  | .addrA => some 0x010
  | .addrB => some 0x014
  | .addrD => some 0x018
  | .cmpAcc => some 0x01C
  | .msgidLo => some 0x020
  | .msgidHi => some 0x024
  | .ctx k => if k < 2 then some (0x028 + 4 * k) else none
  | .iv k => if k < 5 then some (0x030 + 4 * k) else none
  | .key k => if k < 8 then some (0x080 + 4 * k) else none
  | .state k => if k < 12 then some (0x0C0 + 4 * k) else none
  | .reserved => none

/-- An aligned offset of the block names a reserved place, or the register whose offset it is. -/
theorem Reg.offset?_ofOffset {off : Nat} (h : off < 256) (h4 : off % 4 = 0) :
    Reg.ofOffset off = .reserved ∨ (Reg.ofOffset off).offset? = some off := by
  have key : ∀ n, n < 64 →
      Reg.ofOffset (4 * n) = .reserved ∨ (Reg.ofOffset (4 * n)).offset? = some (4 * n) := by decide
  have := key (off / 4) (by omega)
  rwa [show 4 * (off / 4) = off by omega] at this

/-- The offsets that name a KEY register (10_state.md R23). -/
theorem Reg.ofOffset_eq_key {off k : Nat} (h : Reg.ofOffset off = .key k) (h256 : off < 256) (h4 : off % 4 = 0) :
    k < 8 ∧ off = 0x080 + 4 * k := by
  have := Reg.offset?_ofOffset h256 h4
  rw [h] at this
  simp only [Reg.offset?, reduceCtorEq, false_or] at this
  split at this
  · rename_i hk
    simp only [Option.some.injEq] at this
    exact ⟨hk, this.symm⟩
  · cases this

/-- The offset that names CTRL (10_state.md R23). -/
theorem Reg.ofOffset_eq_ctrl {off : Nat} (h : Reg.ofOffset off = .ctrl) (h256 : off < 256) (h4 : off % 4 = 0) :
    off = 0 := by
  have := Reg.offset?_ofOffset h256 h4
  rw [h] at this
  simpa [Reg.offset?, eq_comm] using this

/-- A host register access that is not refused is an aligned 32-bit access inside the block
(20_memory.md R71). -/
theorem accessedReg_ok {c : Config} {a : Word} {width : Nat} {r : Reg} (h : accessedReg c a width = .ok r) :
    ∃ off, width = 4 ∧ off % 4 = 0 ∧ off < 256 ∧ a.toNat = c.regBase.toNat + off ∧ r = Reg.ofOffset off := by
  unfold accessedReg regOffset at h
  split at h
  · cases h
  · rename_i off ho
    split at ho
    · simp only [Option.some.injEq] at ho
      split at h
      · injection h with h
        exact ⟨off, by omega, by omega, by omega, by omega, h.symm⟩
      · cases h
    · cases ho

/-- What a register write can do to KEY (10_state.md R24, R33): only an idle write to a KEY register or to
KCLR changes it. -/
theorem writeReg_key {s : State} {r : Reg} {v : Word} (h : (writeReg s r v).key ≠ s.key) :
    s.busy = false ∧ ((∃ k, r = .key k) ∨ (r = .ctrl ∧ v.getLsbD 1 = true)) := by
  cases hb : s.busy with
  | true =>
    exfalso
    apply h
    cases r <;> simp [writeReg, State.unlessBusy, State.ctrlWrite, State.statusWrite, State.cmdWrite, hb]
  | false =>
    refine ⟨rfl, ?_⟩
    cases r with
    | key k => exact .inl ⟨k, rfl⟩
    | ctrl =>
      refine .inr ⟨rfl, ?_⟩
      by_contra hv
      apply h
      simp only [Bool.not_eq_true] at hv
      simp only [writeReg, State.ctrlWrite, hv, Bool.false_and, Bool.false_eq_true, if_false]
    | _ =>
      exfalso
      apply h
      simp [writeReg, State.unlessBusy, State.statusWrite, State.cmdWrite, State.issue, hb]

end Sys2Proof.Machine
end

