-- ==== Sys2Proof/Laws/Sponge.lean ====
section
/-! SUPPORT. The byte-by-byte reading of the sponge's steps, and the word view of the permutation. -/

namespace Sys2Proof.Machine

/-! ## Word view (10_state.md R20) -/

/-- The words of the grid are the words of the state, `W(S, j)`. -/
theorem ofBytes_word (v : Bytes 48) {j : Nat} (hj : j < 12) : (Grid.ofBytes v).word j = stateWord v j := by
  interval_cases j <;> rfl

theorem byteAt_toBytes (g : Grid) {j i : Nat} (hj : j < 12) (hi : i < 4) :
    byteAt g.toBytes (4 * j + i) = wordByte (g.word j) i := by
  rw [Grid.toBytes, byteAt_ofFn _ (by omega : 4 * j + i < 48)]
  simp only
  rw [show (4 * j + i) / 4 = j by omega, show (4 * j + i) % 4 = i by omega]

/-- `W(fromWords(w), j) = w[j]` (00_scope.md R11). -/
theorem stateWord_toBytes (g : Grid) {j : Nat} (hj : j < 12) : stateWord g.toBytes j = g.word j := by
  have h := le32_wordByte (g.word j)
  rw [← byteAt_toBytes g hj (by omega : 0 < 4), ← byteAt_toBytes g hj (by omega : 1 < 4),
    ← byteAt_toBytes g hj (by omega : 2 < 4), ← byteAt_toBytes g hj (by omega : 3 < 4)] at h
  exact h

/-! ## XOR into a range and put into the rate -/

theorem byteAt_xorRange (v : Bytes 48) (a n : Nat) (b : Nat → Byte) {i : Nat} (hi : i < 48) :
    byteAt (xorRange v a n b) i = if a ≤ i ∧ i < a + n then byteAt v i ^^^ b (i - a) else byteAt v i := by
  rw [xorRange, byteAt_ofFn _ hi]

theorem byteAt_putRate (v : Bytes 48) (n : Nat) (b : Nat → Byte) {i : Nat} (hi : i < 48) :
    byteAt (putRate v n b) i = if i < n then b i else byteAt v i := by
  rw [putRate, byteAt_ofFn _ hi]

/-- XORing a sequence in, when its bytes are given by a function. -/
theorem xorInto_eq_xorRange_of (v : Bytes 48) {a n : Nat} {bs : List Byte} {b : Nat → Byte}
    (hl : bs.length = n) (h : a + n ≤ 48) (hb : ∀ j, j < n → bs.getD j 0 = b j) :
    xorInto v a bs = xorRange v a n b := by
  subst hl
  apply bytes_ext
  intro i hi
  rw [byteAt_xorInto v a bs h, byteAt_xorRange _ _ _ _ hi]
  split
  · rw [hb _ (by omega)]
  · rfl

theorem xorInto_singleton (v : Bytes 48) {a : Nat} (b : Byte) (h : a < 48) :
    xorInto v a [b] = xorRange v a 1 (fun _ => b) :=
  xorInto_eq_xorRange_of v rfl (by omega) (fun j hj => by
    obtain rfl : j = 0 := by omega
    rfl)

/-- Putting a sequence into the rate, when its bytes are given by a function. -/
theorem putBytes_eq_putRate_of (v : Bytes 48) {n : Nat} {bs : List Byte} {b : Nat → Byte}
    (hl : bs.length = n) (h : n ≤ 48) (hb : ∀ j, j < n → bs.getD j 0 = b j) :
    putBytes v 0 bs = putRate v n b := by
  subst hl
  apply bytes_ext
  intro i hi
  rw [byteAt_putRate _ _ _ hi, byteAt_putBytes]
  simp only [Nat.zero_le, Nat.zero_add, true_and, hi, and_true, Nat.sub_zero]
  split
  · rename_i h; exact hb _ h
  · rfl

/-- `Pad` byte by byte (42_sponge.md R174). -/
theorem pad_eq_padSpec (v : Bytes 48) {pos : Nat} (dom : BitVec 7) (h : pos < 16) : pad v pos dom = padSpec v pos dom := by
  rw [pad, padSpec, xorInto_singleton _ _ (by omega), xorInto_singleton _ _ (by omega)]
  rfl

/-! ## Blocks -/

theorem getD_take {m : List Byte} {n j : Nat} (h : j < n) : (m.take n).getD j 0 = m.getD j 0 := by
  simp [List.getD_eq_getElem?_getD, h]

theorem getD_drop (m : List Byte) (n j : Nat) : (m.drop n).getD j 0 = m.getD (n + j) 0 := by
  simp [List.getD_eq_getElem?_getD]

/-- `[m[j] ^ S[j] for j]`, the output of one block (42_sponge.md R178, R180). -/
theorem xorBytes_bytesFrom_eq_map (m : List Byte) (v : Bytes 48) {n : Nat} (hn : m.length = n) (h : n ≤ 48) :
    xorBytes m (bytesFrom v 0 n) = (List.range n).map (fun j => m.getD j 0 ^^^ byteAt v j) := by
  have hb := length_bytesFrom v (a := 0) (len := n) (by omega)
  apply List.ext_getElem
  · simp [hn, hb]
  · intro i h1 h2
    have hi : i < n := by simpa using h2
    have hx := getD_xorBytes m (bytesFrom v 0 n) (i := i) (by omega) (by omega)
    rw [getD_bytesFrom _ _ _ hi, List.getD_eq_getElem _ _ h1] at hx
    simp [hx]

/-- XORing the same bytes in twice gives the first sequence back. -/
theorem xorBytes_cancel (m k : List Byte) (h : m.length ≤ k.length) : xorBytes (xorBytes m k) k = m := by
  induction m generalizing k with
  | nil => rfl
  | cons a m ih =>
    cases k with
    | nil => simp at h
    | cons b k =>
      have hk := ih k (by simpa using h)
      simp only [xorBytes, List.zipWith_cons_cons] at hk ⊢
      rw [hk, BitVec.xor_assoc, BitVec.xor_self, BitVec.xor_zero]

end Sys2Proof.Machine
end

