-- ==== Sys2Proof/Laws/Step.lean ====
section
/-! SUPPORT. What a step can do, said once: the engine's turn, each input, and reset. -/

namespace Sys2Proof.Machine

/-! ## The inputs still to come do not matter to a command -/

@[simp] theorem sources_setPending (i : Instr) (s : State) (l : List Input) :
    sources i (s.setPending l) = sources i s := by
  cases i <;> rfl

@[simp] theorem destination_setPending (i : Instr) (s : State) (l : List Input) :
    destination i (s.setPending l) = destination i s := by
  cases i <;> rfl

@[simp] theorem ranges_setPending (i : Instr) (s : State) (l : List Input) :
    ranges i (s.setPending l) = ranges i s := by
  simp [ranges]

/-- The running command is the one CMDL decodes to (R98). -/
theorem runningCommand_of_busy {s : State} {i : Instr} (hb : s.busy = true) (hd : decode s.cmdl = .ok i) :
    runningCommand s = some i := by
  simp [runningCommand, hb, hd]

theorem runningCommand_eq_some {s : State} {i : Instr} (h : runningCommand s = some i) :
    s.busy = true ∧ decode s.cmdl = .ok i := by
  unfold runningCommand at h
  split at h
  · rename_i hb
    split at h
    · rename_i j hj
      injection h with h
      exact ⟨hb, h ▸ hj⟩
    · cases h
  · cases h

/-! ## Host races -/

/-- A host write races exactly on a byte of the running command's ranges (R78). -/
theorem writeRaces_iff (i : Instr) (s : State) (a : Nat) :
    writeRaces i s a = true ↔ ∃ r ∈ ranges i s, InRange r .mem a := by
  simp [writeRaces, coversMem_iff]

/-- A host read races exactly on a byte of the destination, or of the in-place range of an AEAD
command (R78). -/
theorem readRaces_iff (i : Instr) (s : State) (a : Nat) :
    readRaces i s a = true ↔ (∃ d, destination i s = some d ∧ InRange d .mem a) ∨
      (IsAead i ∧ s.addrD = s.addrA ∧ ∃ q ∈ sources i s, InRange q .mem a) := by
  unfold readRaces noReadRanges
  cases i <;> simp [coversMem_iff, IsAead, and_assoc]

/-! ## Reset -/

/-- The range an abandoned command leaves unspecified is its MEM destination, cut at the top of data
memory (R271). -/
theorem abandonedRange_eq_some {s : State} {r : Range} (h : abandonedRange s = some r) :
    ∃ i d, s.busy = true ∧ decode s.cmdl = .ok i ∧ destination i s = some d ∧ d.space = .mem ∧
      r = { d with len := min d.len (2 ^ 32 - d.addr) } := by
  unfold abandonedRange at h
  split at h
  · cases h
  · rename_i i hi
    obtain ⟨hb, hd⟩ := runningCommand_eq_some hi
    obtain ⟨d, hdst, hr⟩ := Option.bind_eq_some_iff.1 h
    split at hr
    · rename_i hsp
      injection hr with hr
      exact ⟨i, d, hb, hd, hdst, hsp, hr.symm⟩
    · cases hr

theorem abandonedRange_of_idle {s : State} (h : s.busy = false) : abandonedRange s = none := by
  simp [abandonedRange, runningCommand, h]

/-- A destination's address is one of the data memory's (R28). -/
theorem destination_addr_lt {i : Instr} {s : State} {d : Range} (h : destination i s = some d) :
    d.addr < 2 ^ 32 := by
  cases i <;> simp only [destination, Option.some.injEq, reduceCtorEq] at h <;> subst h <;>
    exact s.addrD.isLt

theorem platformReset_mem_of_idle {s : State} (h : s.busy = false) : (platformReset s).mem = s.mem := by
  simp [platformReset, abandonedRange_of_idle h]

/-- Reset changes data memory only inside the range of an abandoned command (R271, R272). -/
theorem read_platformReset (s : State) (a : Nat)
    (h : ∀ r, abandonedRange s = some r → ¬ InRange r .mem a) :
    (platformReset s).mem.read a = s.mem.read a := by
  cases hr : abandonedRange s with
  | none => simp [platformReset, hr]
  | some r =>
    simp only [platformReset, hr]
    exact read_spoilRange _ _ _ (h r hr)

/-- Reset keeps memory in its canonical form. -/
theorem wf_platformReset {s : State} (hm : s.mem.wf = true) : (platformReset s).mem.wf = true := by
  cases hr : abandonedRange s with
  | none => simpa [platformReset, hr] using hm
  | some r =>
    simp only [platformReset, hr]
    obtain ⟨i, d, -, -, hd, hsp, rfl⟩ := abandonedRange_eq_some hr
    have := destination_addr_lt hd
    refine wf_spoilRange _ _ hm ?_
    simp only [Fits, hsp]
    omega

/-! ## The step -/

/-- Everything the engine's turn can do: nothing while idle, the perform of the decoded command, or
completion with ILLEGAL (R95, R246, R256). -/
theorem engineTurn_cases {s t : State} (h : engineTurn s = .next t) :
    (s.busy = false ∧ t = s) ∨
    (s.busy = true ∧ ∃ i, decode s.cmdl = .ok i ∧ exec i s = .next t) ∨
    (s.busy = true ∧ (∃ e, decode s.cmdl = .error e) ∧ t = s.complete .illegal) := by
  unfold engineTurn at h
  split at h
  · rename_i hb
    unfold perform at h
    split at h
    · rename_i i hi
      exact .inr (.inl ⟨hb, i, hi, h⟩)
    · rename_i e he
      injection h with h
      exact .inr (.inr ⟨hb, ⟨e, he⟩, h.symm⟩)
  · rename_i hb
    injection h with h
    exact .inl ⟨by simpa using hb, h.symm⟩

/-- Everything a step that gives a next state can do: the engine's turn, a register write or read, a
data-memory write or read, or reset. -/
theorem step_cases {s t : State} (h : step s = .next t) :
    (s.pending = [] ∧ engineTurn s = .next t) ∨
    (∃ rest, s.pending = .engine :: rest ∧ engineTurn (s.setPending rest) = .next t) ∨
    (∃ rest a w v r, s.pending = .regWrite a w v :: rest ∧ accessedReg s.cfg a w = .ok r ∧
      t = writeReg (s.setPending rest) r v) ∨
    (∃ rest a w r, s.pending = .regRead a w :: rest ∧ accessedReg s.cfg a w = .ok r ∧
      t = { s.setPending rest with hostWord := readReg (s.setPending rest) r }) ∨
    (∃ rest a v, s.pending = .memWrite a v :: rest ∧
      t = (s.setPending rest).setMem (s.mem.set a.toNat v)) ∨
    (∃ rest a, s.pending = .memRead a :: rest ∧
      t = { s.setPending rest with hostByte := s.mem.read a.toNat }) ∨
    (∃ rest, s.pending = .reset :: rest ∧ t = platformReset (s.setPending rest)) := by
  unfold step at h
  split at h
  · rename_i hp
    exact .inl ⟨hp, h⟩
  · rename_i e rest hp
    cases e with
    | engine => exact .inr (.inl ⟨rest, hp, h⟩)
    | regWrite a w v =>
      simp only [runInput, hostRegWrite, State.setPending_cfg] at h
      split at h
      · rename_i r hr
        injection h with h
        exact .inr (.inr (.inl ⟨rest, a, w, v, r, hp, hr, h.symm⟩))
      · cases h
    | regRead a w =>
      simp only [runInput, hostRegRead, State.setPending_cfg] at h
      split at h
      · rename_i r hr
        injection h with h
        exact .inr (.inr (.inr (.inl ⟨rest, a, w, r, hp, hr, h.symm⟩)))
      · cases h
    | memWrite a v =>
      simp only [runInput, hostMemWrite, State.setPending_mem] at h
      split at h
      · cases h
      · injection h with h
        exact .inr (.inr (.inr (.inr (.inl ⟨rest, a, v, hp, h.symm⟩))))
    | memRead a =>
      simp only [runInput, hostMemRead, State.setPending_mem] at h
      split at h
      · cases h
      · injection h with h
        exact .inr (.inr (.inr (.inr (.inr (.inl ⟨rest, a, hp, h.symm⟩)))))
    | reset =>
      injection h with h
      exact .inr (.inr (.inr (.inr (.inr (.inr ⟨rest, hp, h.symm⟩)))))

/-- A register write changes neither memory nor the parameters (R23). -/
theorem writeReg_mem_cfg (s : State) (r : Reg) (v : Word) :
    (writeReg s r v).mem = s.mem ∧ (writeReg s r v).cfg = s.cfg := by
  cases hb : s.busy <;> cases r <;>
    simp [writeReg, State.unlessBusy, State.ctrlWrite, State.statusWrite, State.cmdWrite, State.issue, hb]

end Sys2Proof.Machine
end

