-- ==== Sys2Proof/Tests/Slice0.lean ====
section
/-! SUPPORT. The model's own tests. Expected values are the spec's (95_test_vectors.md, or a hand calculation
from the rule a test names). After them, one witness per statement that has hypotheses. -/

namespace Sys2Proof.Machine

/-! ## Helpers -/

/-- `n` bytes written as one hexadecimal number in address order, byte 0 first. -/
def hexBytes (n v : Nat) : List Byte := (List.range n).map (fun i => BitVec.ofNat 8 (v >>> (8 * (n - 1 - i))))

/-- A data memory that holds the bytes from address `a` on. -/
def memWith (a : Nat) (bs : List Byte) : Memory := Memory.writeBytes [] a bs

/-- The state after reset with a data memory and the operand registers ADDR_A, ADDR_B, ADDR_D and LEN. -/
def withOperands (m : Memory) (a b d n : Word) : State :=
  { State.reset with mem := m, addrA := a, addrB := b, addrD := d, len := n }

/-- The next state, or the given one where there is none. -/
def nextOr (s : State) (o : Host.Outcome State Fault Refusal) : State :=
  match o with
  | .next t => t
  | .fault _ | .refused _ => s

/-- The outcome is the fault HOST_RACE. -/
def isRace (o : Host.Outcome State Fault Refusal) : Bool :=
  match o with
  | .fault (.hostRace _) => true
  | .next _ | .refused _ => false

/-- The state after a command. -/
def after (i : Instr) (s : State) : State := nextOr s (exec i s)

/-- Only the first 64 KiB are admitted, as in the error vectors of 95_test_vectors.md. -/
def lowMem : Config := { Config.default with memMap := [⟨0, 0x10000, .plain⟩] }

/-! ## The checks on syntax and parameters refuse ill-formed terms -/

theorem test_wellFormed_refuses_pad_position_16 : (Instr.pad 16 0).wellFormed = false := by decide
theorem test_wellFormed_accepts_pad_position_15 : (Instr.pad 15 0x7F).wellFormed = true := by decide
theorem test_keyTagsDiffer_refuses_equal_tags : { Config.default with tagKey0 := 0xFF }.keyTagsDiffer = false := by decide
theorem test_domainsDiffer_refuses_equal_domains : { Config.default with domXof := 0 }.domainsDiffer = false := by decide
theorem test_regBlockFits_refuses_a_block_over_the_top :
    { Config.default with regBase := 0xFFFFFF04 }.regBlockFits = false := by decide
theorem test_memMapFits_refuses_a_region_over_the_top :
    { Config.default with memMap := [⟨0xFFFFFFFF, 2, .plain⟩] }.memMapFits = false := by decide
theorem test_default_parameters_are_wellFormed : Config.default.wellFormed = true := by decide
theorem test_memory_wf_refuses_unsorted_cells : Memory.wf [(5, 0), (4, 0)] = false := by decide

/-! ## Decoding: words written from the patterns of 30_encoding.md R94 -/

theorem test_decode_permute : decode 0b00000000000000001010010100000001 = .ok (.permute 0xA5) := by decide
theorem test_decode_zero : decode 0b00100000000000000000000000000010 = .ok (.zero .state) := by decide
theorem test_decode_copy : decode 0b00001000000000000000000000000011 = .ok (.copy .state .mem) := by decide
theorem test_decode_xor : decode 0b00100000000000000000000000000100 = .ok (.xor .mem .state) := by decide
theorem test_decode_xor2 : decode 0b00010000000000000000000000000101 = .ok (.xor2 .mem .state .mem) := by decide
theorem test_decode_cmp : decode 0b00001000000000000000000000000110 = .ok (.cmp .state .mem) := by decide
theorem test_decode_setup : decode 0b00000000000000001111111000001000 = .ok (.setup 0xFE) := by decide
theorem test_decode_finalize : decode 0b00000000000000000000100000001001 = .ok (.finalize 0x08) := by decide
theorem test_decode_pad : decode 0b00000111111100110000000000001010 = .ok (.pad 3 0x7F) := by decide
theorem test_decode_absorb : decode 0b00000000111100000000001000001011 = .ok (.absorb 0x02 0x0F) := by decide
theorem test_decode_encstream : decode 0b00000100000000000000001000001100 = .ok (.encstream 0x02 0x40) := by decide
theorem test_decode_decstream : decode 0b00000000000100000000001000001101 = .ok (.decstream 0x02 0x01) := by decide
theorem test_decode_aeadEnc : decode 0b00000000000000000000000000010000 = .ok .aeadEnc := by decide
theorem test_decode_aeadDec : decode 0b00000000000000000000000000010001 = .ok .aeadDec := by decide

/-- R95: an unassigned OP, RSV ≠ 0 and a set bit of an unused field are refused by name. -/
theorem test_decode_rejects_by_name :
    decode 0x00000012 = .error (.unassignedOpcode 0x12) ∧ decode 0x40000001 = .error .reservedBits ∧
      decode 0x00100001 = .error .unusedField := by decide

theorem test_decodeTableWord : decodeTableWord 32 0x00F5000A = some (.pad 5 0x0F) ∧ decodeTableWord 32 0x107 = none := by
  decide

/-! ## The commands -/

/-- V-P-3, through issue and the engine's turn. -/
theorem test_permute : (List.range 12).map (wordAt (nextOr .reset (step (State.reset.withFetchWord 32 0x00000101))).S) =
    [0x07035bfe, 0x3402af1e, 0x5a57843a, 0x5bd5d9f5, 0xd380f304, 0x5a57eb02, 0x1cc09ad0, 0x9c4bf1bd, 0xd168f97c,
     0x3ab88ba9, 0xdb94e39b, 0xf8f01e89] := by decide +kernel

/-- V-Z-2. -/
theorem test_zero : (after (.zero .state) { withOperands [] 0 0 16 32 with S := Vector.replicate 48 0xFF }).S.toList =
    List.replicate 16 0xFF ++ List.replicate 32 0 := by decide +kernel

/-- V-E-11, V-E-10: an empty range at the end of S, and one past it. -/
theorem test_zero_of_empty_ranges :
    (after (.zero .state) (withOperands [] 0 0 48 0)).statusWord = 0x00000002 ∧
      (after (.zero .state) (withOperands [] 0 0 50 0)).statusWord = 0x00000206 := by decide +kernel

/-- V-C-1. -/
theorem test_copy : (after (.copy .state .mem) { withOperands [] 16 0 0x3200 4 with
    S := Vector.ofFn (fun i => BitVec.ofNat 8 i.val) }).mem = memWith 0x3200 [0x10, 0x11, 0x12, 0x13] := by decide +kernel

/-- V-X-1. -/
theorem test_xor : (bytesFrom (after (.xor .mem .state) { withOperands (memWith 0x100 [0xFF, 0x00, 0xFF, 0x00]) 0x100 0 0 4 with
    S := putBytes zeroState 0 [0x01, 0x02, 0x03, 0x04] }).S 0 5) = [0xFE, 0x02, 0xFC, 0x04, 0x00] := by decide +kernel

/-- V-E-15: a partial overlap of D with A is ALIAS and writes nothing. -/
theorem test_xor_alias :
    let s := withOperands (memWith 0x100 [1, 2, 3, 4]) 0x100 0 0x102 4
    (after (.xor .mem .mem) s).statusWord = 0x00000406 ∧ (after (.xor .mem .mem) s).mem = s.mem := by decide +kernel

/-- V-X2-1. -/
theorem test_xor2 : (after (.xor2 .mem .mem .mem)
    (withOperands (memWith 0x200 [0x10, 0x20, 0x01, 0x02]) 0x200 0x202 0x300 2)).mem.readBytes 0x300 2 = [0x11, 0x22] := by
  decide +kernel

/-- V-CMP-1, V-CMP-3. -/
theorem test_cmp :
    let t := after (.cmp .mem .mem)
      (withOperands (memWith 0x10 [0, 1, 2, 3, 4, 5, 6, 7, 0, 1, 2, 3, 4, 4, 6, 7]) 0x10 0x18 0 8)
    t.cmpAcc = 0x00000100 ∧ t.statusWord = 0x0000000A := by decide +kernel

theorem test_cmp_byte_4_is_in_lane_0 : (after (.cmp .mem .mem)
    (withOperands (memWith 0x10 [0, 0, 0, 0, 0, 0, 0, 0, 0, 0x80]) 0x10 0x15 0 5)).cmpAcc = 0x00000080 := by decide +kernel

/-- V-SU-4. -/
theorem test_setup : (after (.setup 0xFE) State.reset).S.toList =
    hexBytes 48 0x45a20bb8787f631cac310ad3fd66f8152ff906b53d9bb0002c5c2f796b28f4afcbea303d13b5bdbb5d0b33b05225e606 := by
  decide +kernel

/-- V-F-2. -/
theorem test_finalize : (after (.finalize 0xF8)
    { State.reset with key := Vector.ofFn (fun i => BitVec.ofNat 8 i.val) }).S.toList =
    hexBytes 48 0xd06ec473721eecec5573d114b17d4e7e9ad9271a7f381c36063ee416d144dab85ff3137ba7ceac26308873f1b7cf810f := by
  decide +kernel

/-- V-PD-1, V-PD-4. -/
theorem test_pad :
    (after (.pad 15 0x0F) State.reset).S = Vector.ofFn (fun i => if i.val = 15 then 0x9F else 0) ∧
    (after (.pad 3 0x7F) State.reset).S = Vector.ofFn (fun i => if i.val = 3 then 0xFF else if i.val = 15 then 0x80 else 0) := by
  decide +kernel

/-- V-AB-3: a full block, then the pad at position 0. -/
theorem test_absorb : (after (.absorb 2 0x0F)
    (withOperands (memWith 0 ((List.range 16).map (BitVec.ofNat 8))) 0 0 0 16)).S.toList =
    hexBytes 48 0xd2b4182a0fe63151cdd79d75bd8c3ede4fe03882dada39542d932d2b7798dfd01534b9884ed18ff3c2df8285a21dbeb2 := by
  decide +kernel

/-- V-ES-1. -/
theorem test_encstream :
    let t := after (.encstream 2 0) (withOperands (memWith 0 ((List.range 17).map (BitVec.ofNat 8))) 0 0 0x100 17)
    t.mem.readBytes 0x100 17 = (List.range 16).map (BitVec.ofNat 8) ++ [0x12] ∧ t.S.toList =
      hexBytes 48 0xb9e12381ad24fb17ac645da90fb50067eca6fc8ce062c10882f1e2de34396eb4342cf81b33904d801ab3d50280706e58 := by
  decide +kernel

/-- V-DS-1, in place. -/
theorem test_decstream :
    let t := after (.decstream 2 0)
      (withOperands (memWith 0 ((List.range 16).map (BitVec.ofNat 8) ++ [0x12])) 0 0 0 17)
    t.mem = memWith 0 ((List.range 17).map (BitVec.ofNat 8)) ∧ t.S.toList =
      hexBytes 48 0xb9e12381ad24fb17ac645da90fb50067eca6fc8ce062c10882f1e2de34396eb4342cf81b33904d801ab3d50280706e58 := by
  decide +kernel

/-- V-AE-H: the header of the empty message, with the default parameters. -/
theorem test_aeadEnc :
    let t := after .aeadEnc (withOperands [] 0x100 0 0x100 0)
    t.mem = memWith 0x100 (hexBytes 36 0xbf8e9872722ffe5240e4e5da25e3de9a502d025b8e1737cef42bcff620e2e6ff609cfd62) ∧
      t.S = zeroState ∧ t.statusWord = 0x00000002 := by decide +kernel

/-- The ciphertext of V-AE-H at 0x100, to be decrypted in place. -/
def emptyCiphertext : State :=
  withOperands (memWith 0x100 (hexBytes 36 0xbf8e9872722ffe5240e4e5da25e3de9a502d025b8e1737cef42bcff620e2e6ff609cfd62))
    0x100 0 0x100 36

/-- V-AE-H, decrypted. -/
theorem test_aeadDec : (after .aeadDec emptyCiphertext).statusWord = 0x00000002 := by decide +kernel

/-- The same with a bit of the tag flipped (as V-AE-0's note): AUTH, and CMP_ACC is untouched. -/
theorem test_aeadDec_auth :
    let t := after .aeadDec { emptyCiphertext with mem := emptyCiphertext.mem.set 0x114 0x8F }
    t.statusWord = 0x00000706 ∧ t.cmpAcc = 0 := by decide +kernel

/-! ## Registers, errors and the interrupt -/

/-- V-R-4, V-R-5: a second CMD write during BUSY sets OVR and is dropped. -/
theorem test_overrun :
    let s := { (State.reset.issue 0x00000001).setPending [.regWrite 8 4 0x00000101] with ie := true }
    let t := nextOr s (step s)
    t.statusWord = 0x00000011 ∧ t.cmdl = 1 ∧ t.irq = false ∧ (nextOr t (step t)).statusWord = 0x00000012 ∧
      (nextOr t (step t)).irq = true := by decide +kernel

/-- V-E-17: BUS; the destination takes free values, of which nothing is said. -/
theorem test_bus : (after (.copy .mem .mem)
    { withOperands (memWith 0x100 [1, 2]) 0x100 0 0x20000 2 with cfg := lowMem }).statusWord = 0x00000606 := by decide +kernel

/-- R72, U7: a command over memory with side effects completes; its destination and S are free values, of which
nothing is said. -/
theorem test_side_effect_memory : (after .aeadEnc
    { withOperands [] 0x100 0 0x200 3 with cfg := { Config.default with memMap := [⟨0, 2 ^ 32, .sideEffect⟩] } }).statusWord =
    0x00000002 := by decide +kernel

/-- R78: a host read of a source byte runs, a host write of it races. -/
theorem test_host_race :
    let s := (withOperands (memWith 0x100 [7]) 0x100 0 0x200 1).issue 0x00000003
    (nextOr s (step (s.setPending [.memRead 0x100]))).hostByte = 7 ∧
      isRace (step (s.setPending [.memWrite 0x100 0])) = true := by decide +kernel

/-! ## Witnesses: states and operands that meet the hypotheses of each statement -/

/-- A command over a state runs normally, by evaluation of its checks. -/
theorem runsNormally_of_checks {i : Instr} {s : State}
    (h : validationError i s = none ∧ busOk i s = true ∧ memIdempotent i s = true) : RunsNormally i s :=
  (runsNormally_iff i s).2 h

/-- A running command: XOR of the 4 bytes at 0x10 into the 4 bytes at 0x20 of data memory. -/
def running : State := (withOperands (memWith 0x10 [1, 2, 3, 4, 5]) 0x10 0 0x20 4).issue 0x00000004

/-- A running AEAD_DEC in place. -/
def runningInPlace : State := emptyCiphertext.issue 0x00000011

/-- DecodeFollowsTheOneSelectingRow: a word that a row selects, and one that no row selects. -/
theorem test_witness_rows : (0x00F0020B : Word) &&& Opcode.absorb.mask = Opcode.absorb.matchWord ∧
    ∀ o : Opcode, (0x00000000 : Word) &&& o.mask ≠ o.matchWord :=
  ⟨by decide, fun o => by cases o <;> decide⟩

/-- DecodeOfEncodeIsTheCommand, DecodedWordIsItsEncoding: with every field at its largest value. -/
theorem test_witness_encode : (Instr.pad 15 0x7F).wellFormed = true ∧ encode (.pad 15 0x7F) = 0x07FF000A ∧
    decode 0x07FF000A = .ok (.pad 15 0x7F) := by decide

/-- IllegalEncodingsCompleteWithIllegal: a running illegal word, on either kind of engine turn. -/
theorem test_witness_illegal :
    (State.reset.issue 0x00000107).busy = true ∧
      decode (State.reset.issue 0x00000107).cmdl = .error (.unassignedOpcode 0x07) ∧
      (State.reset.issue 0x00000107).pending = [] ∧
      ((State.reset.issue 0x00000107).setPending [.engine]).pending = .engine :: [] := by decide

/-- EngineStepPerformsTheDecodedCommand, EveryPerformCompletes, WritesWhileBusyAreIgnored: a running command, and an idle engine. -/
theorem test_witness_running : running.busy = true ∧ decode running.cmdl = .ok (.xor .mem .mem) ∧
    running.pending = [] ∧ (running.setPending [.engine]).pending = .engine :: [] ∧
    State.reset.busy = false ∧ State.reset.pending = [] := by decide

/-- CommandWriteIssuesOrSetsOverrun: a CMD write, idle and while BUSY; and a step that clears OVR. -/
theorem test_witness_command_write :
    (0x008 : Word).toNat = State.reset.cfg.regBase.toNat + 8 ∧ State.reset.busy = false ∧ running.busy = true ∧
    (let s := { State.reset with ovr := true, pending := [.regWrite 0x004 4 0x10] }
     s.ovr = true ∧ (nextOr s (step s)).ovr = false) := by decide +kernel

/-- StateWindowShowsSOnlyWhileIdle, OperandRegistersReadBackWhatWasWritten, KeyIsWriteOnlyAndKept,
RegisterMapOfTheBlock: the lowest and the highest register of each window. -/
theorem test_witness_windows :
    IsOperandReg (.ctx 0) ∧ IsOperandReg (.ctx 1) ∧ IsOperandReg (.iv 0) ∧ IsOperandReg (.iv 4) ∧
      IsOperandReg (.state 0) ∧ IsOperandReg (.state 11) ∧ Reg.ofOffset 0x02C = .ctx 1 ∧
      Reg.ofOffset 0x040 = .iv 4 ∧ Reg.ofOffset 0x09C = .key 7 ∧ Reg.ofOffset 0x0EC = .state 11 := by
  simp [IsOperandReg, Reg.ofOffset]

/-- KeyIsWriteOnlyAndKept: a step that changes the key, and a KCLR write. -/
theorem test_witness_key :
    (let s := State.reset.setPending [.regWrite 0x09C 4 0xFF000000]
     (nextOr s (step s)).key ≠ s.key) ∧ (0x00000002 : Word).getLsbD 1 = true := by decide +kernel

/-- CtrlHoldsEnableAndClearsTheKey: KCLR while idle, and a write that does not clear the key, idle and while BUSY. -/
theorem test_witness_ctrl : (0x2 : Word).getLsbD 1 = true ∧ State.reset.busy = false ∧
    (0x1 : Word).getLsbD 1 = false ∧ running.busy = true := by decide

/-- R24, R30, R31: KCLR, and the byte order of MSGID and of the CTX window, from the host's writes. -/
theorem test_register_writes :
    (writeReg { State.reset with key := Vector.replicate 32 0xAA } .ctrl 0x3).key = Vector.replicate 32 0 ∧
    readReg (writeReg State.reset .ctrl 0x3) .ctrl = 0x1 ∧
    (writeReg (writeReg State.reset .msgidLo 0x55667788) .msgidHi 0x11223344).msgid = 0x1122334455667788 ∧
    (writeReg State.reset (.ctx 1) 0x04030201).ctx = #v[0, 0, 0, 0, 1, 2, 3, 4] := by decide

/-- HostReadsDoNotRevealTheKey: two states that differ in the key alone, and the host reads KEY_0 or makes
an access that is refused. -/
theorem test_witness_key_secrecy :
    SameButKey (State.reset.setPending [.regRead 0x080 4])
      { State.reset.setPending [.regRead 0x080 4] with key := Vector.replicate 32 0xAA } ∧
    State.reset.key ≠ Vector.replicate 32 0xAA ∧
    (∃ t, step (State.reset.setPending [.regRead 0x080 4]) = .next t) ∧
    (∃ e, step (State.reset.setPending [.regRead 0x081 4]) = .refused e) :=
  ⟨⟨_, rfl⟩, by decide, ⟨_, rfl⟩, ⟨_, rfl⟩⟩

/-- ResetSetsEveryEngineField, ResetKeepsMemoryOutsideAnAbandonedDestination: reset of an idle engine and of one that
abandons a command, whose destination holds 0x23 and not 0x24. -/
theorem test_witness_reset :
    (∃ t, step (State.reset.setPending [.reset]) = .next t) ∧ (∃ t, step (running.setPending [.reset]) = .next t) ∧
    destination (.xor .mem .mem) running = some ⟨.mem, 0x20, 4⟩ ∧ InRange ⟨.mem, 0x20, 4⟩ .mem 0x23 ∧
    ¬ InRange ⟨.mem, 0x20, 4⟩ .mem 0x24 :=
  ⟨⟨_, rfl⟩, ⟨_, rfl⟩, rfl, ⟨rfl, by decide, by decide⟩, fun h => absurd h.2.2 (by decide)⟩

/-- InterruptIsDoneAndEnable, ReservedOffsetsAndBitsReadZero: writes that clear, and the ends of the reserved ranges. -/
theorem test_witness_flags :
    (0x2 : Word).getLsbD 1 = true ∧ (0x2 : Word).getLsbD 0 = false ∧ (∃ t, exec (.pad 0 0) State.reset = .next t) ∧
    Reg.ofOffset 0x044 = .reserved ∧ Reg.ofOffset 0x07C = .reserved ∧ Reg.ofOffset 0x0A0 = .reserved ∧
    Reg.ofOffset 0x0BC = .reserved ∧ Reg.ofOffset 0x0F0 = .reserved ∧ Reg.ofOffset 0x0FC = .reserved :=
  ⟨rfl, rfl, ⟨_, rfl⟩, rfl, rfl, rfl, rfl, rfl, rfl⟩

/-- RegisterAccessesAreAlignedWords: the first and last register, a byte access, and an unaligned one. -/
theorem test_witness_accesses :
    (0x00 : Word).toNat = State.reset.cfg.regBase.toNat + 0 ∧ (0xFC : Word).toNat = State.reset.cfg.regBase.toNat + 252 ∧
    252 % 4 = 0 ∧ 252 < 256 ∧ 1 ≠ 4 ∧ 255 % 4 ≠ 0 ∧ 255 < 256 := by decide

/-- HostRaceFaultsExactlyOnForbiddenBytes: the last source byte, the byte after it, the destination, and the in-place
range of an AEAD command; an idle engine, and a latched illegal word. -/
theorem test_witness_host_race :
    (∃ r ∈ ranges (.xor .mem .mem) running, InRange r .mem 0x13) ∧
    (∀ r ∈ ranges (.xor .mem .mem) running, ¬ InRange r .mem 0x14) ∧
    (∃ d, destination (.xor .mem .mem) running = some d ∧ InRange d .mem 0x20) ∧
    (runningInPlace.busy = true ∧ decode runningInPlace.cmdl = .ok .aeadDec ∧
      IsAead .aeadDec ∧ runningInPlace.addrD = runningInPlace.addrA ∧
      ∃ q ∈ sources .aeadDec runningInPlace, InRange q .mem 0x123) ∧
    State.reset.busy = false ∧
    ((State.reset.issue 0x00000107).busy = true ∧ ∃ e, decode (State.reset.issue 0x00000107).cmdl = .error e) := by
  simp only [← coversMem_iff]
  exact ⟨by decide, by simp only [Bool.not_eq_true]; decide, ⟨_, rfl, rfl⟩,
    ⟨rfl, rfl, .inr rfl, rfl, by decide⟩, rfl, rfl, _, rfl⟩

/-- CoreFollowsTheRoundRules, PermFoldsTheTagAndRunsCore: the ends of the columns, of the rounds by their remainder, and
of the words. -/
theorem test_witness_core_bounds : 3 < 4 ∧ 24 % 4 = 0 ∧ 22 % 4 = 2 ∧ 2 % 4 = 2 ∧ 1 % 2 = 1 ∧ 23 % 2 = 1 ∧
    (4 ≤ 11 ∧ 11 < 12) := by decide

/-- OnlyCmpWritesTheAccumulator, CommandsKeepOperandRegisters: a command that is not CMP has a next state. -/
theorem test_witness_any_command : (∀ asp bsp, Instr.permute 0 ≠ .cmp asp bsp) ∧
    ∃ t, exec (.permute 0) State.reset = .next t := ⟨by simp, _, exec_eq _ _⟩

/-- PermutationSourceVector: the source's input state. -/
theorem test_witness_source_vector : wordAt (n := 48) (Vector.ofFn (fun i =>
    wordByte (BitVec.ofNat 32 ((i.val / 4) * (i.val / 4) * (i.val / 4) + (i.val / 4) * 0x9e3779b9)) (i.val % 4))) 11 =
    0xcc624026 := by decide +kernel

/-- ZeroClearsItsRange: all of S, and the last byte of data memory. -/
theorem test_witness_zero : RunsNormally (.zero .state) (withOperands [] 0 0 0 48) ∧
    RunsNormally (.zero .mem) (withOperands [] 0 0 0xFFFFFFFF 1) :=
  ⟨runsNormally_of_checks (by decide +kernel), runsNormally_of_checks (by decide +kernel)⟩

/-- CopyCopiesItsRange: between the spaces, and onto itself. -/
theorem test_witness_copy : RunsNormally (.copy .state .mem) (withOperands [] 16 0 0x3200 16) ∧
    RunsNormally (.copy .mem .mem) (withOperands [] 0x100 0 0x100 8) :=
  ⟨runsNormally_of_checks (by decide +kernel), runsNormally_of_checks (by decide +kernel)⟩

/-- XorXorsIntoItsRange. -/
theorem test_witness_xor : RunsNormally (.xor .mem .state) (withOperands [] 0x100 0 44 4) ∧
    RunsNormally (.xor .mem .mem) running :=
  ⟨runsNormally_of_checks (by decide +kernel), runsNormally_of_checks (by decide +kernel)⟩

/-- Xor2XorsTwoRangesIntoAThird: A and B overlap, D is disjoint from both. -/
theorem test_witness_xor2 : RunsNormally (.xor2 .mem .mem .mem) (withOperands [] 0x200 0x201 0x300 2) :=
  runsNormally_of_checks (by decide +kernel)

/-- CmpSetsTheAccumulator, CtCmpOrsEveryByteIntoItsLane. -/
theorem test_witness_cmp : RunsNormally (.cmp .state .mem) (withOperands [] 0 0x200 0 16) ∧
    ([1, 2] : List Byte).length = ([1, 3] : List Byte).length :=
  ⟨runsNormally_of_checks (by decide +kernel), rfl⟩

/-- PadMarksPositionAndRateEnd: the last position of the rate, and the command that has it. -/
theorem test_witness_pad : 15 < 16 ∧ decode 0x000F000A = .ok (.pad 15 0) := by decide

/-- AbsorbCommandAppliesAbsorb, PartialAbsorbFromPrimitives: an empty message and one of 15 bytes. -/
theorem test_witness_absorb : RunsNormally (.absorb 2 0x0F) (withOperands [] 0 0 0 0) ∧
    RunsNormally (.absorb 2 0x0F) (withOperands [] 0x100 0 0 15) ∧
    (withOperands [] 0x100 0 0 15).len.toNat < 16 ∧ (withOperands [] 0x100 0 0 15).addrD = 0 :=
  ⟨runsNormally_of_checks (by decide +kernel), runsNormally_of_checks (by decide +kernel), by decide, rfl⟩

/-- EncstreamCommandEncryptsIntoD, DecstreamCommandDecryptsIntoD: into another buffer, and in place. -/
theorem test_witness_streams : RunsNormally (.encstream 2 0) (withOperands [] 0 0 0x100 17) ∧
    RunsNormally (.decstream 2 0) (withOperands [] 0x100 0 0x100 17) :=
  ⟨runsNormally_of_checks (by decide +kernel), runsNormally_of_checks (by decide +kernel)⟩

/-- DecStreamInvertsEncStream. -/
theorem test_witness_stream_inverse : ∃ u c, encStream zeroState [1] 2 0 = (u, c) := ⟨_, _, rfl⟩

/-- AeadEncWritesTheCiphertext, AeadRoundTrip, InPlaceEncryptionEqualsOutOfPlace: a message of 3 bytes, in place
and into another buffer, and its ciphertext of 39 bytes decrypted into a third. -/
theorem test_witness_aead :
    let s := withOperands (memWith 0x100 [1, 2, 3]) 0x100 0 0x100 3
    RunsNormally .aeadEnc s ∧ s.addrD = s.addrA ∧ RunsNormally .aeadEnc { s with addrD := 0x200 } ∧
    (39 : Word).toNat = s.len.toNat + 36 ∧
    ∃ t, exec .aeadEnc s = .next t ∧ RunsNormally .aeadDec { t with addrA := s.addrD, addrD := 0x300, len := 39 } :=
  ⟨runsNormally_of_checks (by decide +kernel), rfl, runsNormally_of_checks (by decide +kernel), rfl,
    ownEffect .aeadEnc _, exec_of_runsNormally (runsNormally_of_checks (by decide +kernel)),
    runsNormally_of_checks (by decide +kernel)⟩

/-- AeadDecReleasesPlaintextOnlyOnMatch, DecryptionIsAllOrNothing: a ciphertext that decrypts with OK and one that ends in
AUTH (test_aeadDec and test_aeadDec_auth run them). -/
theorem test_witness_aeadDec : RunsNormally .aeadDec emptyCiphertext ∧
    RunsNormally .aeadDec { emptyCiphertext with mem := emptyCiphertext.mem.set 0x114 0x8F } ∧
    (∀ r ∈ ranges .aeadDec emptyCiphertext, Idempotent emptyCiphertext.cfg r) ∧
    ∃ t, exec .aeadDec emptyCiphertext = .next t :=
  have h : RunsNormally .aeadDec emptyCiphertext := runsNormally_of_checks (by decide +kernel)
  ⟨h, runsNormally_of_checks (by decide +kernel), fun r hr => (h.2.1 r hr).2.2, _, exec_eq _ _⟩

/-- ValidationErrorsChangeOnlyStatus, ErrorsAreReportedInOrder, DecryptionIsAllOrNothing: each validation error happens
(V-E-7, V-E-9, V-E-12, V-E-15, and AEAD_DEC's own WRAP and ALIAS). -/
theorem test_witness_validation_errors :
    (after .aeadDec (withOperands [] 0x100 0 0x300 35)).errcode = .len ∧
    (after (.zero .state) (withOperands [] 0 0 40 16)).errcode = .stateRange ∧
    (after (.zero .mem) (withOperands [] 0 0 0xFFFFFFF8 16)).errcode = .wrap ∧
    (after (.xor .mem .mem) (withOperands [] 0x100 0 0x108 16)).errcode = .aliasing ∧
    (after .aeadDec (withOperands [] 0xFFFFFFF0 0 0 36)).errcode = .wrap ∧
    (after .aeadDec (withOperands [] 0x100 0 0x101 40)).errcode = .aliasing := by decide +kernel

/-- CommandsWriteOnlyTheirDestination: a destination in S, and a command that leaves S. -/
theorem test_witness_destinations :
    destination (.zero .state) (withOperands [] 0 0 16 32) = some ⟨.state, 16, 32⟩ ∧ LeavesS (.cmp .state .mem) :=
  ⟨rfl, .inr (.inr (.inr (.inr ⟨_, _, rfl⟩)))⟩

/-- BusErrorOutcome, ErrorsAreReportedInOrder: V-E-18, a range that fits and is not admitted. -/
theorem test_witness_bus :
    let s := { withOperands [] 0 0 0xFFFFFFF0 16 with cfg := lowMem }
    (∀ r ∈ ranges (.zero .mem) s, Fits r) ∧ AliasAdmitted (.zero .mem) s ∧
      ∃ r ∈ ranges (.zero .mem) s, ¬ Admitted s.cfg r := by
  refine ⟨fun r hr => ?_, (aliasingOk_iff _ _).1 rfl, ⟨.mem, 0xFFFFFFF0, 16⟩, List.mem_singleton.2 rfl, fun h => ?_⟩
  · rw [List.mem_singleton.1 hr]
    exact (fits_iff _).1 (by decide +kernel)
  · exact absurd (h 0xFFFFFFF0 ⟨rfl, by decide, by decide⟩) (by decide +kernel)

/-- StepKeepsTheInvariant: a running command's state, and its step. -/
theorem test_witness_invariant : MachineInv running ∧ ∃ t, step running = .next t :=
  ⟨⟨by decide, by decide, fun _ => ⟨rfl, rfl⟩⟩, _, rfl⟩

end Sys2Proof.Machine
end

section
/-! PROOFS. The engine state of 10_state.md: what a register read gives, what a register write changes, what
reset sets, and which fields no command writes;
after these rules, the statements about the register block, KEY, CMP_ACC and the operand registers. -/

namespace Sys2Proof.Machine

/-! ## Writes that BUSY gates (10_state.md R36) -/

theorem State.unlessBusy_of_idle {s : State} (h : s.busy = false) (t : State) : s.unlessBusy t = t := by
  simp [State.unlessBusy, h]

theorem State.unlessBusy_of_busy {s : State} (h : s.busy = true) (t : State) : s.unlessBusy t = s := by
  simp [State.unlessBusy, h]

/-- While BUSY = 1 only CTRL, STATUS and CMD take a write (10_state.md R36). -/
theorem writeReg_of_busy {s : State} (h : s.busy = true) {r : Reg} (hctrl : r ≠ .ctrl) (hstatus : r ≠ .status)
    (hcmd : r ≠ .cmd) (v : Word) : writeReg s r v = s := by
  cases r with
  | ctrl => exact absurd rfl hctrl
  | status => exact absurd rfl hstatus
  | cmd => exact absurd rfl hcmd
  | cmpAcc | reserved => rfl
  | _ => exact State.unlessBusy_of_busy h _

theorem State.cmdWrite_of_busy {s : State} (h : s.busy = true) (v : Word) : s.cmdWrite v = { s with ovr := true } := by
  simp [State.cmdWrite, h]

/-! ## A word written to a byte field (10_state.md R23) -/

/-- The four bytes of register `k` after a write to it are the bytes of the word written. -/
theorem byteAt_putWord_inside {n : Nat} (v : Bytes n) {k j : Nat} (w : Word) (hk : 4 * k + 4 ≤ n) (hj : j < 4) :
    byteAt (putWord v k w) (4 * k + j) = w.extractLsb' (8 * j) 8 := by
  rw [byteAt_putWord, if_pos (by omega), Nat.add_sub_cancel_left, wordByte]

theorem byteAt_putWord_outside {n : Nat} (v : Bytes n) {k j : Nat} (w : Word) (hj : j < 4 * k ∨ 4 * k + 4 ≤ j) :
    byteAt (putWord v k w) j = byteAt v j := by
  rw [byteAt_putWord, if_neg (by omega)]

theorem writeReg_state_of_idle {s : State} (h : s.busy = false) (k : Nat) (v : Word) :
    writeReg s (.state k) v = { s with S := putWord s.S k v } := State.unlessBusy_of_idle h _

theorem writeReg_key_of_idle {s : State} (h : s.busy = false) (k : Nat) (v : Word) :
    writeReg s (.key k) v = { s with key := putWord s.key k v } := State.unlessBusy_of_idle h _

/-! ## The two words of MSGID (10_state.md R30) -/

theorem msgid_eq_words (m : BitVec 64) :
    m = ((m.extractLsb' 32 32).zeroExtend 64 <<< 32) ||| (m.extractLsb' 0 32).zeroExtend 64 := by
  rw [← BitVec.setWidth_append_eq_shiftLeft_setWidth_or, BitVec.extractLsb'_append_extractLsb']
  exact (BitVec.setWidth_eq m).symm

/-! ## CTRL and STATUS, bit by bit (10_state.md R24, R25) -/

theorem getLsbD_flagBit (b : Bool) {n : Nat} (hn : n < 32) (i : Nat) :
    (flagBit b n).getLsbD i = (b && decide (i = n)) := by
  cases b with
  | false => simp [flagBit]
  | true =>
    calc (BitVec.twoPow 32 n).getLsbD i
      _ = decide (n = i) := by rw [BitVec.getLsbD_twoPow, decide_eq_true hn, Bool.true_and]
      _ = (true && decide (i = n)) := by rw [Bool.true_and, decide_eq_decide, eq_comm]

theorem getLsbD_ctrlWord (s : State) (i : Nat) : s.ctrlWord.getLsbD i = (s.ie && decide (i = 0)) :=
  getLsbD_flagBit _ (by decide) i

theorem getLsbD_ctrlWord_of_pos (s : State) {i : Nat} (h : 1 ≤ i) : s.ctrlWord.getLsbD i = false := by
  rw [getLsbD_ctrlWord, decide_eq_false (by omega), Bool.and_false]

/-- KCLR zeroes KEY while BUSY = 0 (10_state.md R24). -/
theorem writeReg_ctrl_kclr {s : State} {v : Word} (hv : v.getLsbD 1 = true) (hb : s.busy = false) :
    writeReg s .ctrl v = { s with ie := v.getLsbD 0, key := Vector.replicate 32 0 } := by
  simp only [writeReg, State.ctrlWrite, hv, hb, Bool.not_false, Bool.and_true, if_true]

/-- A write to CTRL without KCLR, or while BUSY = 1, sets IE only (10_state.md R24, R36). -/
theorem writeReg_ctrl_of_no_kclr {s : State} {v : Word} (h : v.getLsbD 1 = false ∨ s.busy = true) :
    writeReg s .ctrl v = { s with ie := v.getLsbD 0 } := by
  have hkclr : (v.getLsbD 1 && !s.busy) = false := by rcases h with h | h <;> rw [h] <;> simp
  simp only [writeReg, State.ctrlWrite, hkclr, Bool.false_eq_true, if_false]

theorem getLsbD_statusWord (s : State) (i : Nat) : s.statusWord.getLsbD i =
    ((s.busy && decide (i = 0)) || (s.done && decide (i = 1)) || (s.err && decide (i = 2)) ||
      (s.cmpne && decide (i = 3)) || (s.ovr && decide (i = 4)) ||
      (decide (8 ≤ i) && s.errcode.number.getLsbD (i - 8))) := by
  have hcode : (s.errcode.number.zeroExtend 32 <<< 8).getLsbD i =
      (decide (8 ≤ i) && s.errcode.number.getLsbD (i - 8)) := by
    have hhigh : 32 ≤ i → s.errcode.number.getLsbD (i - 8) = false :=
      fun h => BitVec.getLsbD_of_ge _ _ (by omega)
    rw [BitVec.getLsbD_shiftLeft, BitVec.getLsbD_setWidth]
    grind
  simp only [State.statusWord, BitVec.getLsbD_or, getLsbD_flagBit _ (show 0 < 32 by decide),
    getLsbD_flagBit _ (show 1 < 32 by decide), getLsbD_flagBit _ (show 2 < 32 by decide),
    getLsbD_flagBit _ (show 3 < 32 by decide), getLsbD_flagBit _ (show 4 < 32 by decide), hcode]

/-- The reserved bits of STATUS read 0 (10_state.md R35). -/
theorem getLsbD_statusWord_reserved (s : State) {i : Nat} (h : (5 ≤ i ∧ i ≤ 7) ∨ 12 ≤ i) :
    s.statusWord.getLsbD i = false := by
  have hcode : 8 ≤ i → s.errcode.number.getLsbD (i - 8) = false :=
    fun h8 => BitVec.getLsbD_of_ge _ _ (by omega)
  simpa [getLsbD_statusWord, show i ≠ 0 by omega, show i ≠ 1 by omega, show i ≠ 2 by omega,
    show i ≠ 3 by omega, show i ≠ 4 by omega] using hcode

/-- A field of STATUS that lies in its reserved bits is 0 (10_state.md R35). -/
theorem extractLsb'_statusWord_reserved (s : State) {a len : Nat} (h : (5 ≤ a ∧ a + len ≤ 8) ∨ 12 ≤ a) :
    s.statusWord.extractLsb' a len = 0 := by
  apply BitVec.eq_of_getLsbD_eq
  intro i hi
  simp [getLsbD_statusWord_reserved s (i := a + i) (by omega)]

theorem extractLsb'_statusWord_errcode (s : State) : s.statusWord.extractLsb' 8 4 = s.errcode.number := by
  apply BitVec.eq_of_getLsbD_eq
  intro i hi
  simp [getLsbD_statusWord, hi, show 8 + i ≠ 1 by omega, show 8 + i ≠ 2 by omega,
    show 8 + i ≠ 3 by omega, show 8 + i ≠ 4 by omega]

theorem State.err_iff (s : State) : s.err = true ↔ s.errcode ≠ .ok := by
  have h : ∀ c : Code, (c.number != 0) = true ↔ c ≠ .ok := by intro c; cases c <;> decide
  exact h s.errcode

theorem State.cmpne_iff (s : State) : s.cmpne = true ↔ s.cmpAcc ≠ 0 := by
  simp [State.cmpne]

/-! ## An operand register reads back (10_state.md R23) -/

/-- An idle write to an operand register is read back there, and every other register reads as before. -/
theorem readReg_writeReg_of_idle {s : State} (hb : s.busy = false) {r : Reg} (hr : IsOperandReg r) (v : Word)
    (q : Reg) : readReg (writeReg s r v) q = if q = r then v else readReg s q := by
  rcases hr with rfl | rfl | rfl | rfl | rfl | rfl | ⟨k, hk, rfl⟩ | ⟨k, hk, rfl⟩ | ⟨k, hk, rfl⟩ <;>
    simp only [writeReg, State.unlessBusy_of_idle hb]
  · cases q <;> rfl
  · cases q <;> rfl
  · cases q <;> rfl
  · cases q <;> rfl
  · cases q with
    | msgidLo => exact BitVec.extractLsb'_append_eq_right
    | msgidHi => exact BitVec.extractLsb'_append_eq_left
    | _ => rfl
  · cases q with
    | msgidLo => exact BitVec.extractLsb'_append_eq_right
    | msgidHi => exact BitVec.extractLsb'_append_eq_left
    | _ => rfl
  · cases q with
    | ctx l => simp [readReg, wordAt_putWord s.ctx k l v (by omega)]
    | _ => rfl
  · cases q with
    | iv l => simp [readReg, wordAt_putWord s.iv k l v (by omega)]
    | _ => rfl
  · cases q with
    | state l => simp [readReg, hb, wordAt_putWord s.S k l v (by omega)]
    | _ => rfl

/-- A write to an operand register changes at most the fields that hold operands (10_state.md R23). -/
theorem writeReg_operand_frame {s : State} (hb : s.busy = false) {r : Reg} (hr : IsOperandReg r) (v : Word) :
    ∃ S ctx iv msgid len a b d, writeReg s r v =
      { s with
        S := S, ctx := ctx, iv := iv, msgid := msgid, len := len, addrA := a, addrB := b, addrD := d } := by
  rcases hr with rfl | rfl | rfl | rfl | rfl | rfl | ⟨k, -, rfl⟩ | ⟨k, -, rfl⟩ | ⟨k, -, rfl⟩ <;>
    exact ⟨_, _, _, _, _, _, _, _, State.unlessBusy_of_idle hb _⟩

/-! ## Reserved offsets (10_state.md R23, R35) -/

theorem Reg.ofOffset_reserved {off : Nat}
    (h : (0x044 ≤ off ∧ off ≤ 0x07C) ∨ (0x0A0 ≤ off ∧ off ≤ 0x0BC) ∨ (0x0F0 ≤ off ∧ off ≤ 0x0FC)) :
    Reg.ofOffset off = .reserved := by
  rw [Reg.ofOffset]
  iterate 14 rw [if_neg (by omega)]

/-! ## Reset (10_state.md R41, 70_reset_and_hazards.md R270) -/

theorem step_of_pending {s : State} {e : Input} {rest : List Input} (h : s.pending = e :: rest) :
    step s = runInput e (s.setPending rest) := by
  simp [step, h]

/-- The reset input always answers with a next state (70_reset_and_hazards.md R270). -/
theorem step_reset {s : State} {rest : List Input} (h : s.pending = .reset :: rest) :
    step s = .next (platformReset (s.setPending rest)) := step_of_pending h

/-- Every field of the engine has its value of `State.reset`; only memory and the model's own fields are free. -/
def EngineReset (t : State) : Prop :=
  ∃ mem cfg pending hostWord hostByte draws, t =
    { State.reset with
      mem := mem, cfg := cfg, pending := pending, hostWord := hostWord, hostByte := hostByte, draws := draws }

theorem engineReset_reset : EngineReset State.reset := ⟨_, _, _, _, _, _, rfl⟩

theorem engineReset_platformReset (s : State) : EngineReset (platformReset s) := ⟨_, _, _, _, _, _, rfl⟩

/-- The reset input leaves the engine in its reset state (70_reset_and_hazards.md R270). -/
theorem engineReset_of_step {s t : State} {rest : List Input} (h : s.pending = .reset :: rest)
    (hs : step s = .next t) : EngineReset t := by
  rw [step_reset h] at hs
  injection hs with hs
  exact hs ▸ engineReset_platformReset _

/-! ## What no command writes (10_state.md R27 to R33) -/

theorem spoil_cmpAcc {i : Instr} (h : ∀ asp bsp, i ≠ .cmp asp bsp) (s : State) : (spoil i s).cmpAcc = s.cmpAcc := by
  cases i with
  | cmp asp bsp => exact absurd rfl (h asp bsp)
  | _ => simp [spoil, State.spoilS]

theorem ownEffect_cmpAcc {i : Instr} (h : ∀ asp bsp, i ≠ .cmp asp bsp) (s : State) :
    (ownEffect i s).cmpAcc = s.cmpAcc := by
  cases i with
  | cmp asp bsp => exact absurd rfl (h asp bsp)
  | _ => simp [ownEffect]

/-- Only CMP writes CMP_ACC, whatever the outcome (10_state.md R29, 43_aead.md R219). -/
theorem exec_cmpAcc {i : Instr} {s t : State} (hi : ∀ asp bsp, i ≠ .cmp asp bsp) (h : exec i s = .next t) :
    t.cmpAcc = s.cmpAcc := by
  rcases exec_cases h with ⟨e, -, rfl⟩ | ⟨-, -, rfl⟩ | ⟨-, -, -, rfl⟩ | ⟨-, rfl⟩
  · rfl
  · rw [completeBus_cmpAcc, spoil_cmpAcc hi]
  · rw [completeSpoiled_cmpAcc, spoil_cmpAcc hi]
  · exact ownEffect_cmpAcc hi s

/-- Every outcome of a command leaves the operand registers as they are (60_exceptions.md R241). -/
theorem exec_sameOperands {i : Instr} {s t : State} (h : exec i s = .next t) : SameOperands s t := by
  rcases exec_cases h with ⟨e, -, rfl⟩ | ⟨-, -, rfl⟩ | ⟨-, -, -, rfl⟩ | ⟨-, rfl⟩ <;> simp [SameOperands]

theorem engineTurn_key {s t : State} (h : engineTurn s = .next t) : t.key = s.key := by
  rcases engineTurn_cases h with ⟨-, rfl⟩ | ⟨-, i, -, hi⟩ | ⟨-, -, rfl⟩
  · rfl
  · exact (exec_sameOperands hi).1
  · rfl

/-- A host register write that changes KEY is an aligned write while BUSY = 0 to CTRL with KCLR or to a KEY register
(10_state.md R33). -/
theorem keyWrite_offset {s : State} {a : Word} {width : Nat} {v : Word} {r : Reg}
    (ha : accessedReg s.cfg a width = .ok r) (hk : (writeReg s r v).key ≠ s.key) :
    width = 4 ∧ s.busy = false ∧ ∃ off, a.toNat = s.cfg.regBase.toNat + off ∧
      ((off = 0 ∧ v.getLsbD 1 = true) ∨ ∃ k, k < 8 ∧ off = 0x080 + 4 * k) := by
  obtain ⟨off, hw, h4, h256, haddr, hoff⟩ := accessedReg_ok ha
  obtain ⟨hb, ⟨k, hr⟩ | ⟨hr, hkclr⟩⟩ := writeReg_key hk
  · exact ⟨hw, hb, off, haddr, .inr ⟨k, Reg.ofOffset_eq_key (hoff ▸ hr) h256 h4⟩⟩
  · exact ⟨hw, hb, off, haddr, .inl ⟨Reg.ofOffset_eq_ctrl (hoff ▸ hr) h256 h4, hkclr⟩⟩

/-- The ways a step can change KEY: reset, or a host write of `keyWrite_offset` (10_state.md R33). -/
theorem step_changes_key {s t : State} (h : step s = .next t) (hk : t.key ≠ s.key) :
    (∃ rest, s.pending = .reset :: rest) ∨
    ∃ a v rest off, s.pending = .regWrite a 4 v :: rest ∧ s.busy = false ∧
      a.toNat = s.cfg.regBase.toNat + off ∧
      ((off = 0 ∧ v.getLsbD 1 = true) ∨ ∃ k, k < 8 ∧ off = 0x080 + 4 * k) := by
  rcases step_cases h with ⟨-, he⟩ | ⟨rest, -, he⟩ | ⟨rest, a, w, v, r, hp, ha, rfl⟩ |
    ⟨rest, a, w, r, -, -, rfl⟩ | ⟨rest, a, v, -, rfl⟩ | ⟨rest, a, -, rfl⟩ | ⟨rest, hp, -⟩
  · exact absurd (engineTurn_key he) hk
  · exact absurd (engineTurn_key he) hk
  · obtain ⟨rfl, hb, off, haddr, hoff⟩ := keyWrite_offset (s := s.setPending rest) ha hk
    exact .inr ⟨a, v, rest, off, hp, hb, haddr, hoff⟩
  · exact absurd rfl hk
  · exact absurd rfl hk
  · exact absurd rfl hk
  · exact .inl ⟨rest, hp⟩

/-! ## Reads do not depend on KEY (10_state.md R33, 60_exceptions.md R251) -/

theorem SameButKey.readReg_eq {s t : State} (h : SameButKey s t) (r : Reg) : readReg s r = readReg t r := by
  obtain ⟨k, rfl⟩ := h
  cases r <;> rfl

theorem SameButKey.setPending {s t : State} (h : SameButKey s t) (l : List Input) :
    SameButKey (s.setPending l) (t.setPending l) := by
  obtain ⟨k, rfl⟩ := h
  exact ⟨k, rfl⟩

theorem SameButKey.setHostWord {s t : State} (h : SameButKey s t) (w : Word) :
    SameButKey { s with hostWord := w } { t with hostWord := w } := by
  obtain ⟨k, rfl⟩ := h
  exact ⟨k, rfl⟩

theorem step_regRead_ok {s : State} {a : Word} {width : Nat} {rest : List Input} {r : Reg}
    (h : s.pending = .regRead a width :: rest) (ha : accessedReg s.cfg a width = .ok r) :
    step s = .next { s.setPending rest with hostWord := readReg (s.setPending rest) r } := by
  rw [step_of_pending h]
  simp [runInput, hostRegRead, ha]

theorem step_regRead_error {s : State} {a : Word} {width : Nat} {rest : List Input} {e : Refusal}
    (h : s.pending = .regRead a width :: rest) (ha : accessedReg s.cfg a width = .error e) :
    step s = .refused e := by
  rw [step_of_pending h]
  simp [runInput, hostRegRead, ha]

/-- Two states that differ only in KEY answer a host register read alike: the same word, or the same refusal. -/
theorem SameButKey.step_regRead {s t : State} (h : SameButKey s t) {a : Word} {width : Nat} {rest : List Input}
    (hp : s.pending = .regRead a width :: rest) :
    (∃ s' t', step s = .next s' ∧ step t = .next t' ∧ SameButKey s' t' ∧ t'.hostWord = s'.hostWord) ∨
    ∃ e, step s = .refused e ∧ step t = .refused e := by
  have hpt : t.pending = .regRead a width :: rest := by obtain ⟨k, rfl⟩ := h; exact hp
  have hcfg : t.cfg = s.cfg := by obtain ⟨k, rfl⟩ := h; rfl
  cases ha : accessedReg s.cfg a width with
  | ok r =>
    have hword := (h.setPending rest).readReg_eq r
    refine .inl ⟨_, _, step_regRead_ok hp ha, step_regRead_ok hpt (hcfg ▸ ha), ?_, hword.symm⟩
    rw [hword]
    exact (h.setPending rest).setHostWord _
  | error e => exact .inr ⟨e, step_regRead_error hp ha, step_regRead_error hpt (hcfg ▸ ha)⟩

/-! ## The statements -/

/-- Settles O10: the window is `wordAt` and `putWord` of S while idle; no other read looks at BUSY, and in STATUS
only bit 0 does. -/
theorem stateWindowShowsSOnlyWhileIdle : Obligations.StateWindowShowsSOnlyWhileIdle := by
  unfold Obligations.StateWindowShowsSOnlyWhileIdle
  refine ⟨fun s k hk hb => ?_, fun s k v hk hb => ?_, fun s k v hb => ?_,
    fun s b => ⟨fun r hstate hstatus => ?_, fun n hn => ?_⟩⟩
  · rw [readReg, hb]
    rfl
  · rw [writeReg_state_of_idle hb]
    exact ⟨fun j hj => byteAt_putWord_inside s.S v (by omega) hj, fun j hj => byteAt_putWord_outside s.S v hj, rfl⟩
  · exact ⟨by simp [readReg, hb], writeReg_of_busy hb (by simp) (by simp) (by simp) v⟩
  · cases r with
    | state k => exact absurd rfl (hstate k)
    | status => exact absurd rfl hstatus
    | _ => rfl
  · have hn0 : n ≠ 0 := by omega
    simp only [readReg, getLsbD_statusWord, hn0, decide_false, Bool.and_false]
    rfl

/-- Settles O11: the layout is that of `wordAt` and of the two halves of MSGID, and an idle write is read back at
its own register only. -/
theorem operandRegistersReadBackWhatWasWritten : Obligations.OperandRegistersReadBackWhatWasWritten := by
  unfold Obligations.OperandRegistersReadBackWhatWasWritten
  refine ⟨fun s => ⟨rfl, rfl, rfl, rfl, msgid_eq_words s.msgid, fun i _ => (byte_of_wordAt s.ctx i).symm,
    fun i _ => (byte_of_wordAt s.iv i).symm⟩,
    fun s r v hb hr => ⟨?_, fun q hq => ?_, writeReg_operand_frame hb hr v⟩⟩
  · rw [readReg_writeReg_of_idle hb hr, if_pos rfl]
  · rw [readReg_writeReg_of_idle hb hr, if_neg hq]

/-- Settles O13: a KEY write is `putWord` of the key, and of the cases of a step only reset and a host register write
change KEY (`step_changes_key`). -/
theorem keyIsWriteOnlyAndKept : Obligations.KeyIsWriteOnlyAndKept := by
  unfold Obligations.KeyIsWriteOnlyAndKept
  refine ⟨fun _ _ => rfl, fun s k v hk hb => ?_, fun s v hb hv => ?_, fun s rest hp => ⟨_, step_reset hp, rfl⟩,
    fun s t => step_changes_key⟩
  · rw [writeReg_key_of_idle hb]
    exact ⟨fun j hj => byteAt_putWord_inside s.key v (by omega) hj,
      fun j hj => byteAt_putWord_outside s.key v hj, rfl⟩
  · rw [writeReg_ctrl_kclr hv hb]

/-- Settles O14: no read looks at KEY, so both states answer a register read alike. -/
theorem hostReadsDoNotRevealTheKey : Obligations.HostReadsDoNotRevealTheKey := by
  unfold Obligations.HostReadsDoNotRevealTheKey
  intro s t h
  refine ⟨h.readReg_eq, ?_, fun a width rest hp => ?_⟩
  · obtain ⟨k, rfl⟩ := h
    rfl
  · rcases h.step_regRead hp with ⟨s₁, t₁, hs, ht, hsame, hword⟩ | ⟨e, hs, ht⟩
    · rw [hs, ht]
      refine ⟨fun s' h' => ?_, fun e h' => ?_⟩
      · injection h' with h'
        exact ⟨t₁, rfl, h' ▸ hsame, h' ▸ hword⟩
      · cases h'
    · rw [hs, ht]
      exact ⟨fun _ h' => (nomatch h'), fun _ h' => h'⟩

/-- Settles O19: the reserved ranges hold the reserved register, and the two words and the two writes are known bit
by bit. -/
theorem reservedOffsetsAndBitsReadZero : Obligations.ReservedOffsetsAndBitsReadZero := by
  unfold Obligations.ReservedOffsetsAndBitsReadZero
  refine ⟨fun s v off _ hoff => ?_, fun s n hn => getLsbD_ctrlWord_of_pos s hn, fun s v w h0 h1 => ?_,
    fun s n hn => getLsbD_statusWord_reserved s hn, fun s v w h1 h4 => ?_⟩
  · rw [Reg.ofOffset_reserved hoff]
    exact ⟨rfl, rfl⟩
  · simp only [writeReg, State.ctrlWrite, h0, h1]
  · simp only [writeReg, State.statusWrite, h1, h4]

/-- Settles O52: every outcome of a command but CMP keeps CMP_ACC, and CMPNE is a function of it. -/
theorem onlyCmpWritesTheAccumulator : Obligations.OnlyCmpWritesTheAccumulator := by
  unfold Obligations.OnlyCmpWritesTheAccumulator
  intro i s t hi h
  have hacc := exec_cmpAcc hi h
  exact ⟨hacc, by rw [State.cmpne, State.cmpne, hacc]⟩

/-- Settles O53, by the four outcomes a command can have. -/
theorem commandsKeepOperandRegisters : Obligations.CommandsKeepOperandRegisters := by
  unfold Obligations.CommandsKeepOperandRegisters
  exact fun _ _ _ => exec_sameOperands

/-- Settles O9. -/
theorem writesWhileBusyAreIgnored : Obligations.WritesWhileBusyAreIgnored := by
  unfold Obligations.WritesWhileBusyAreIgnored
  exact fun s v hb => ⟨fun r hctrl hstatus hcmd => writeReg_of_busy hb hctrl hstatus hcmd v,
    writeReg_ctrl_of_no_kclr (.inr hb), rfl, State.cmdWrite_of_busy hb v⟩

/-- Settles O12: the map is finite, so its offsets are computed. -/
theorem registerMapOfTheBlock : Obligations.RegisterMapOfTheBlock := by
  unfold Obligations.RegisterMapOfTheBlock
  exact ⟨rfl, rfl, rfl, rfl, rfl, rfl, rfl, rfl, rfl, rfl, rfl, rfl, by decide, by decide, by decide,
    fun _ _ => ⟨rfl, rfl⟩, fun _ _ => ⟨rfl, rfl⟩⟩

/-- Settles O15: State.reset and every state after the reset input are `EngineReset`. -/
theorem resetSetsEveryEngineField : Obligations.ResetSetsEveryEngineField := by
  unfold Obligations.ResetSetsEveryEngineField
  refine ⟨fun s rest hp => ⟨_, step_reset hp⟩, fun t ht => ?_⟩
  have hreset : EngineReset t := by
    rcases ht with rfl | ⟨s, rest, hp, hs⟩
    · exact engineReset_reset
    · exact engineReset_of_step hp hs
  obtain ⟨mem, cfg, pending, hostWord, hostByte, draws, rfl⟩ := hreset
  exact ⟨rfl, rfl, rfl, rfl, rfl, rfl, rfl, rfl, rfl, rfl, rfl, rfl, rfl, rfl, rfl, rfl, rfl, rfl, rfl⟩

/-- Settles O18: the fields are read off `getLsbD_statusWord`. -/
theorem statusFieldsAndW1C : Obligations.StatusFieldsAndW1C := by
  unfold Obligations.StatusFieldsAndW1C
  refine ⟨fun s => ⟨?_, ?_, ?_, ?_, ?_, extractLsb'_statusWord_reserved s (by decide),
    extractLsb'_statusWord_errcode s, extractLsb'_statusWord_reserved s (by decide)⟩,
    ⟨rfl, rfl, rfl, rfl, rfl, rfl, rfl, rfl⟩, fun _ _ => rfl⟩
  · rw [readReg, getLsbD_statusWord]
    simp
  · rw [readReg, getLsbD_statusWord]
    simp
  · rw [readReg, getLsbD_statusWord]
    simp [State.err_iff]
  · rw [readReg, getLsbD_statusWord]
    simp [State.cmpne_iff]
  · rw [readReg, getLsbD_statusWord]
    simp

/-- Settles O58. -/
theorem resetMeetsTheInvariant : Obligations.ResetMeetsTheInvariant := by
  unfold Obligations.ResetMeetsTheInvariant
  exact ⟨Memory.wf_reset, by decide, fun hb => absurd hb (by decide)⟩

/-- Settles O60. -/
theorem ctrlHoldsEnableAndClearsTheKey : Obligations.CtrlHoldsEnableAndClearsTheKey := by
  unfold Obligations.CtrlHoldsEnableAndClearsTheKey
  refine ⟨fun s => ⟨?_, fun n hn => getLsbD_ctrlWord_of_pos s hn⟩, fun s v hv hb => writeReg_ctrl_kclr hv hb,
    fun s v h => writeReg_ctrl_of_no_kclr h⟩
  rw [readReg, getLsbD_ctrlWord]
  simp

end Sys2Proof.Machine
end

section
/-! PROOFS. The memory of 20_memory.md: the register a host access names (R71), what a host access to data memory
does and when it races with the running command (R78), and what a command leaves of data memory and of S (R62). -/

namespace Sys2Proof.Machine

/-! ## Register accesses over the bus (20_memory.md R71, R72) -/

theorem regOffset_of_inside {c : Config} {a : Word} {off : Nat} (ha : a.toNat = c.regBase.toNat + off)
    (h256 : off < 256) : regOffset c a = some off := by
  rw [regOffset, if_pos (by omega), ha, Nat.add_sub_cancel_left]

theorem accessedReg_of_aligned {c : Config} {a : Word} {width off : Nat} (ha : a.toNat = c.regBase.toNat + off)
    (h256 : off < 256) (hw : width = 4) (h4 : off % 4 = 0) : accessedReg c a width = .ok (Reg.ofOffset off) := by
  simp [accessedReg, regOffset_of_inside ha h256, hw, h4]

theorem accessedReg_of_unaligned {c : Config} {a : Word} {width off : Nat} (ha : a.toNat = c.regBase.toNat + off)
    (h256 : off < 256) (h : width ≠ 4 ∨ off % 4 ≠ 0) : accessedReg c a width = .error (.registerAccess off width) := by
  have hbad : ¬ (width = 4 ∧ off % 4 = 0) := by omega
  simp only [accessedReg, regOffset_of_inside ha h256, if_neg hbad]

theorem step_regWrite_ok {s : State} {a v : Word} {width : Nat} {rest : List Input} {r : Reg}
    (h : s.pending = .regWrite a width v :: rest) (ha : accessedReg s.cfg a width = .ok r) :
    step s = .next (writeReg (s.setPending rest) r v) := by
  rw [step_of_pending h]
  simp [runInput, hostRegWrite, ha]

theorem step_regWrite_error {s : State} {a v : Word} {width : Nat} {rest : List Input} {e : Refusal}
    (h : s.pending = .regWrite a width v :: rest) (ha : accessedReg s.cfg a width = .error e) :
    step s = .refused e := by
  rw [step_of_pending h]
  simp [runInput, hostRegWrite, ha]

/-- No register shows the inputs still to come. -/
@[simp] theorem readReg_setPending (s : State) (l : List Input) (r : Reg) :
    readReg (s.setPending l) r = readReg s r := by
  cases r <;> rfl

/-! ## Accesses to data memory (20_memory.md R60, R78) -/

@[simp] theorem runningCommand_setPending (s : State) (l : List Input) :
    runningCommand (s.setPending l) = runningCommand s := rfl

@[simp] theorem writeRaces_setPending (i : Instr) (s : State) (l : List Input) (a : Nat) :
    writeRaces i (s.setPending l) a = writeRaces i s a := by
  simp [writeRaces]

@[simp] theorem readRaces_setPending (i : Instr) (s : State) (l : List Input) (a : Nat) :
    readRaces i (s.setPending l) a = readRaces i s a := by
  rw [Bool.eq_iff_iff, readRaces_iff, readRaces_iff]
  simp

theorem runningCommand_eq_none {s : State} (h : s.busy = false ∨ ∃ e, decode s.cmdl = .error e) :
    runningCommand s = none := by
  rcases h with hb | ⟨e, he⟩
  · simp [runningCommand, hb]
  · simp [runningCommand, he]

theorem step_memWrite {s : State} {a : Word} {v : Byte} {rest : List Input}
    (h : s.pending = .memWrite a v :: rest) :
    step s = if (runningCommand s).any (fun i => writeRaces i s a.toNat) then .fault (.hostRace a)
      else .next { s with pending := rest, mem := s.mem.set a.toNat v } := by
  rw [step_of_pending h]
  simp only [runInput, hostMemWrite, runningCommand_setPending, writeRaces_setPending]
  rfl

theorem step_memRead {s : State} {a : Word} {rest : List Input} (h : s.pending = .memRead a :: rest) :
    step s = if (runningCommand s).any (fun i => readRaces i s a.toNat) then .fault (.hostRace a)
      else .next { s with pending := rest, hostByte := s.mem.read a.toNat } := by
  rw [step_of_pending h]
  simp only [runInput, hostMemRead, runningCommand_setPending, readRaces_setPending]
  rfl

/-! ## What a command writes of data memory (20_memory.md R62) -/

/-- A command that runs normally writes data memory by one write of its whole destination. -/
theorem ownEffect_mem_of_destination {i : Instr} {s : State} {d : Range} (h : RunsNormally i s)
    (hd : destination i s = some d) :
    ∃ v : List Byte, v.length = d.len ∧ (ownEffect i s).mem = (s.writeRange d v).mem := by
  have hlen : ∀ r ∈ ranges i s, (s.readRange r).length = r.len := fun r hr => length_readRange (h.fits hr)
  cases i with
  | permute | cmp | setup | finalize | pad | absorb => cases hd
  | zero dsp =>
    obtain rfl := Option.some.inj hd
    exact ⟨_, length_zeros _, rfl⟩
  | copy asp dsp =>
    obtain rfl := Option.some.inj hd
    exact ⟨_, hlen (s.rangeA asp s.len.toNat) (by simp [ranges, sources]), rfl⟩
  | xor asp dsp =>
    obtain rfl := Option.some.inj hd
    refine ⟨_, ?_, rfl⟩
    rw [length_xorBytes, hlen (s.rangeA asp s.len.toNat) (by simp [ranges, sources]),
      hlen (s.rangeD dsp s.len.toNat) (by simp [ranges, destination])]
    exact Nat.min_self _
  | xor2 asp bsp dsp =>
    obtain rfl := Option.some.inj hd
    refine ⟨_, ?_, rfl⟩
    rw [length_xorBytes, hlen (s.rangeA asp s.len.toNat) (by simp [ranges, sources]),
      hlen (s.rangeB bsp s.len.toNat) (by simp [ranges, sources])]
    exact Nat.min_self _
  | encstream tag dom =>
    obtain rfl := Option.some.inj hd
    exact ⟨_, (length_encStream _ _ _ _).trans (Memory.length_readBytes _ _ _), rfl⟩
  | decstream tag dom =>
    obtain rfl := Option.some.inj hd
    exact ⟨_, (length_decStream _ _ _ _).trans (Memory.length_readBytes _ _ _), rfl⟩
  | aeadEnc =>
    obtain rfl := Option.some.inj hd
    refine ⟨_, ?_, by rw [ownEffect, State.complete_mem, State.setS_mem]⟩
    rw [length_aeadEncrypt, hlen (s.rangeA .mem s.len.toNat) (by simp [ranges, sources])]
    rfl
  | aeadDec =>
    obtain rfl := Option.some.inj hd
    refine ⟨_, ?_, by rw [ownEffect, State.complete_mem, State.setS_mem]⟩
    rw [length_aeadDecrypt, hlen (s.rangeA .mem s.len.toNat) (by simp [ranges, sources])]
    rfl

theorem ownEffect_mem_of_no_destination {i : Instr} {s : State} (hd : destination i s = none) :
    (ownEffect i s).mem = s.mem := by
  cases i with
  | permute | cmp | setup | finalize | pad | absorb => simp [ownEffect]
  | _ => exact absurd hd (Option.some_ne_none _)

/-- A command's own effect changes data memory only inside its destination range. -/
theorem read_ownEffect {i : Instr} {s : State} (h : RunsNormally i s) {a : Nat}
    (ha : ∀ d, destination i s = some d → ¬ InRange d .mem a) :
    (ownEffect i s).mem.read a = s.mem.read a := by
  cases hd : destination i s with
  | none => rw [ownEffect_mem_of_no_destination hd]
  | some d =>
    obtain ⟨v, hv, hmem⟩ := ownEffect_mem_of_destination h hd
    have hfits : Fits d := h.fits (by simp [ranges, hd])
    rw [hmem]
    exact byteIn_writeRange_outside s (sp := .mem) hv hfits (ha d hd)

theorem ownEffect_mem_of_state {i : Instr} {s : State} (h : RunsNormally i s)
    (hd : ∀ d, destination i s = some d → d.space = .state) : (ownEffect i s).mem = s.mem := by
  cases hdst : destination i s with
  | none => exact ownEffect_mem_of_no_destination hdst
  | some d =>
    obtain ⟨v, -, hmem⟩ := ownEffect_mem_of_destination h hdst
    rw [hmem, writeRange_mem_of_state s v (hd d hdst)]

/-- An unspecified outcome of a command without a MEM destination leaves data memory as it is
(60_exceptions.md R244). -/
theorem spoil_mem_of_state {i : Instr} {s : State} (hd : ∀ d, destination i s = some d → d.space = .state) :
    (spoil i s).mem = s.mem := by
  cases i with
  | permute | cmp | setup | finalize | pad | absorb => simp [spoil, State.spoilS, State.spoilCmpAcc]
  | zero dsp | copy _ dsp | xor _ dsp | xor2 _ _ dsp =>
    obtain rfl : dsp = .state := hd _ rfl
    simp [spoil, State.spoilRange, State.spoilS, State.rangeD]
  | encstream | decstream | aeadEnc | aeadDec =>
    have hspace : Space.mem = .state := hd _ rfl
    cases hspace

/-! ## The commands that write no byte of S (41_buffer_algebra.md R141 to R145) -/

theorem LeavesS.not_isAead {i : Instr} (h : LeavesS i) : ¬ IsAead i := by
  rintro (rfl | rfl) <;> simp [LeavesS] at h

theorem LeavesS.spoil_S {i : Instr} (h : LeavesS i) (s : State) : (spoil i s).S = s.S := by
  rcases h with rfl | ⟨_, rfl⟩ | ⟨_, rfl⟩ | ⟨_, _, rfl⟩ | ⟨_, _, rfl⟩ <;> rfl

theorem LeavesS.ownEffect_S {i : Instr} (h : LeavesS i) (s : State) : (ownEffect i s).S = s.S := by
  rcases h with rfl | ⟨_, rfl⟩ | ⟨_, rfl⟩ | ⟨_, _, rfl⟩ | ⟨_, _, rfl⟩ <;> rfl

/-! ## The statements -/

/-- Settles O21: a step of a host access faults exactly if the running command's race test holds, and the test is
membership of the byte in the ranges of R78. -/
theorem hostRaceFaultsExactlyOnForbiddenBytes : Obligations.HostRaceFaultsExactlyOnForbiddenBytes := by
  unfold Obligations.HostRaceFaultsExactlyOnForbiddenBytes
  refine ⟨fun s rest a v hidle => ?_, fun s i rest a v hb hd => ?_⟩
  · have hnone := runningCommand_eq_none hidle
    refine ⟨fun hp => ?_, fun hp => ?_⟩
    · rw [step_memWrite hp, hnone]
      rfl
    · rw [step_memRead hp, hnone]
      rfl
  · have hsome := runningCommand_of_busy hb hd
    refine ⟨fun hp => ?_, fun hp => ?_⟩
    · rw [step_memWrite hp, hsome, Option.any_some]
      exact ⟨fun hin => if_pos ((writeRaces_iff i s _).2 hin), fun hout => if_neg fun hrace =>
        let ⟨r, hr, hin⟩ := (writeRaces_iff i s _).1 hrace
        hout r hr hin⟩
    · rw [step_memRead hp, hsome, Option.any_some]
      exact ⟨fun hin => if_pos ((readRaces_iff i s _).2 hin), fun hdst hplace => if_neg fun hrace =>
        ((readRaces_iff i s _).1 hrace).elim hdst hplace⟩

/-- Settles O54: of the four outcomes of a command, a validation error keeps everything but STATUS, and the other three
write at most the destination and the S of a command that writes it. -/
theorem commandsWriteOnlyTheirDestination : Obligations.CommandsWriteOnlyTheirDestination := by
  unfold Obligations.CommandsWriteOnlyTheirDestination
  intro i s t h
  rcases exec_cases h with ⟨e, -, rfl⟩ | ⟨-, -, rfl⟩ | ⟨-, -, -, rfl⟩ | ⟨hrun, rfl⟩
  · exact ⟨fun _ _ => rfl, fun _ => rfl, fun _ => rfl⟩
  · rw [completeBus_mem]
    exact ⟨fun a ha => read_spoil i s a ha, spoil_mem_of_state,
      fun hS => (completeBus_S_of_not_aead hS.not_isAead _).trans (hS.spoil_S s)⟩
  · rw [completeSpoiled_mem, completeSpoiled_S]
    exact ⟨fun a ha => read_spoil i s a ha, spoil_mem_of_state, fun hS => hS.spoil_S s⟩
  · exact ⟨fun a ha => read_ownEffect hrun ha, ownEffect_mem_of_state hrun, fun hS => hS.ownEffect_S s⟩

/-- Settles O20: the offset decides which register the access names, or that it is refused. -/
theorem registerAccessesAreAlignedWords : Obligations.RegisterAccessesAreAlignedWords := by
  unfold Obligations.RegisterAccessesAreAlignedWords
  intro s a v width off rest ha h256
  refine ⟨fun hw h4 => ?_, fun hbad => ?_⟩
  · have hreg := accessedReg_of_aligned ha h256 hw h4
    refine ⟨fun hp => step_regWrite_ok hp hreg, fun hp => ?_⟩
    rw [step_regRead_ok hp hreg, readReg_setPending]
    rfl
  · have herr := accessedReg_of_unaligned ha h256 hbad
    exact ⟨fun hp => step_regWrite_error hp herr, fun hp => step_regRead_error hp herr⟩

end Sys2Proof.Machine
end

section
/-! PROOFS. The encoding of 30_encoding.md: which row of the opcode map selects a word (R94, R97), the fields of a word
and the word of its fields (R91, R92), and the engine's turn on a legal and on an illegal word (R95, R98);
after these rules, the statements about decode and encode. -/

namespace Sys2Proof

/-! ## The rows of the opcode map (30_encoding.md R93, R94) -/

theorem Opcode.mem_all (o : Opcode) : o ∈ Opcode.all := by cases o <;> decide

theorem Opcode.selects_iff (o : Opcode) (w : Word) : o.selects w = true ↔ w &&& o.mask = o.matchWord :=
  decide_eq_true_iff

theorem Opcode.find?_op_eq (o : Opcode) : Opcode.all.find? (fun p => p.op == o.op) = some o := by
  cases o <;> rfl

/-- The OP byte names its row (30_encoding.md R93). -/
theorem Opcode.op_injective {o p : Opcode} (h : o.op = p.op) : o = p := by
  have hfind := o.find?_op_eq
  rw [h, p.find?_op_eq] at hfind
  exact (Option.some.inj hfind).symm

/-- A field whose bits all lie inside the mask of the selecting row is the field of the match. -/
theorem extractLsb'_of_selected {o : Opcode} {w : Word} (h : w &&& o.mask = o.matchWord) {a len : Nat}
    (hmask : o.mask.extractLsb' a len = BitVec.allOnes len) : w.extractLsb' a len = o.matchWord.extractLsb' a len := by
  rw [← h, BitVec.extractLsb'_and, hmask, BitVec.and_allOnes]

/-- Every mask covers OP, so the selecting row is that of the word's OP byte (30_encoding.md R94). -/
theorem op_of_selected {o : Opcode} {w : Word} (h : w &&& o.mask = o.matchWord) : w.extractLsb' 0 8 = o.op := by
  rw [extractLsb'_of_selected h (by cases o <;> rfl)]
  cases o <;> rfl

/-- Every mask covers RSV, which is 0 in every match (30_encoding.md R94). -/
theorem rsv_of_selected {o : Opcode} {w : Word} (h : w &&& o.mask = o.matchWord) : w.extractLsb' 30 2 = 0 := by
  rw [extractLsb'_of_selected h (by cases o <;> rfl)]
  cases o <;> rfl

/-- At most one row selects a word (30_encoding.md R97). -/
theorem selected_unique {o p : Opcode} {w : Word} (ho : w &&& o.mask = o.matchWord)
    (hp : w &&& p.mask = p.matchWord) : o = p :=
  Opcode.op_injective ((op_of_selected ho).symm.trans (op_of_selected hp))

/-! ## What decode answers (30_encoding.md R95, R97) -/

theorem decode_of_selected {o : Opcode} {w : Word} (h : w &&& o.mask = o.matchWord) :
    decode w = .ok (o.assemble w) := by
  have hfind : Opcode.all.find? (fun p => p.selects w) = some o := by
    cases hf : Opcode.all.find? (fun p => p.selects w) with
    | none => exact absurd ((o.selects_iff w).2 h) (List.find?_eq_none.1 hf o o.mem_all)
    | some p => rw [selected_unique h ((p.selects_iff w).1 (by simpa using List.find?_some hf))]
  simp only [decode, hfind]

theorem decode_of_no_row {w : Word} (h : ∀ o : Opcode, w &&& o.mask ≠ o.matchWord) :
    decode w = .error (rejectReason w) := by
  have hfind : Opcode.all.find? (fun p => p.selects w) = none :=
    List.find?_eq_none.2 fun o _ hsel => h o ((o.selects_iff w).1 hsel)
  simp only [decode, hfind]

/-- A word that decodes has a selecting row, and is that row's command. -/
theorem row_of_decode {w : Word} {i : Instr} (h : decode w = .ok i) :
    ∃ o : Opcode, w &&& o.mask = o.matchWord ∧ i = o.assemble w := by
  by_cases hrow : ∃ o : Opcode, w &&& o.mask = o.matchWord
  · obtain ⟨o, ho⟩ := hrow
    rw [decode_of_selected ho] at h
    exact ⟨o, ho, (Except.ok.inj h).symm⟩
  · rw [decode_of_no_row (not_exists.1 hrow)] at h
    cases h

/-- The decoder refuses exactly the words that no row selects (30_encoding.md R95). -/
theorem decode_error_iff (w : Word) : (∃ e, decode w = .error e) ↔ ∀ o : Opcode, w &&& o.mask ≠ o.matchWord := by
  refine ⟨fun ⟨e, he⟩ o ho => ?_, fun h => ⟨_, decode_of_no_row h⟩⟩
  rw [decode_of_selected ho] at he
  cases he

/-! ## The fields of a word laid out by `fieldsToWord` (30_encoding.md R91, R92) -/

@[simp] theorem bitOfSpace_mem : fieldsToWord.bitOfSpace .mem = 0 := rfl

theorem getElem_bitOfSpace (sp : Space) {i : Nat} (hi : i < 32) :
    (fieldsToWord.bitOfSpace sp)[i] = (decide (sp = .state) && decide (i = 0)) := by
  cases sp <;> simp [fieldsToWord.bitOfSpace]

@[simp] theorem spaceOfBit_decide (sp : Space) : spaceOfBit (decide (sp = .state)) = sp := by
  cases sp <;> rfl

section
variable (op tag : Byte) (pos : BitVec 4) (dom : BitVec 7) (asp bsp dsp : Space)

@[simp] theorem tagField_fieldsToWord : tagField (fieldsToWord op tag pos dom asp bsp dsp) = tag := by
  apply BitVec.eq_of_getLsbD_eq
  intro i hi
  interval_cases i <;> simp [tagField, fieldsToWord]

@[simp] theorem posField_fieldsToWord : posField (fieldsToWord op tag pos dom asp bsp dsp) = pos.toNat := by
  refine congrArg BitVec.toNat (BitVec.eq_of_getLsbD_eq ?_)
  intro i hi
  interval_cases i <;> simp [fieldsToWord]

@[simp] theorem domField_fieldsToWord : domField (fieldsToWord op tag pos dom asp bsp dsp) = dom := by
  apply BitVec.eq_of_getLsbD_eq
  intro i hi
  interval_cases i <;> simp [domField, fieldsToWord]

@[simp] theorem aspField_fieldsToWord : aspField (fieldsToWord op tag pos dom asp bsp dsp) = asp := by
  simp [aspField, fieldsToWord, getElem_bitOfSpace]

@[simp] theorem bspField_fieldsToWord : bspField (fieldsToWord op tag pos dom asp bsp dsp) = bsp := by
  simp [bspField, fieldsToWord, getElem_bitOfSpace]

@[simp] theorem dspField_fieldsToWord : dspField (fieldsToWord op tag pos dom asp bsp dsp) = dsp := by
  simp [dspField, fieldsToWord, getElem_bitOfSpace]

end

/-- The encoding of a command lies in the command's own row (30_encoding.md R94). -/
theorem encode_selected (i : Instr) : encode i &&& i.opcode.mask = i.opcode.matchWord := by
  cases i with
  | permute tag => exact Laws.EncodesInRow.permute tag
  | zero dsp => exact Laws.EncodesInRow.zero dsp
  | copy asp dsp => exact Laws.EncodesInRow.copy asp dsp
  | xor asp dsp => exact Laws.EncodesInRow.xor asp dsp
  | xor2 asp bsp dsp => exact Laws.EncodesInRow.xor2 asp bsp dsp
  | cmp asp bsp => exact Laws.EncodesInRow.cmp asp bsp
  | setup tag => exact Laws.EncodesInRow.setup tag
  | finalize tag => exact Laws.EncodesInRow.finalize tag
  | pad pos dom => exact Laws.EncodesInRow.pad pos dom
  | absorb tag dom => exact Laws.EncodesInRow.absorb tag dom
  | encstream tag dom => exact Laws.EncodesInRow.encstream tag dom
  | decstream tag dom => exact Laws.EncodesInRow.decstream tag dom
  | aeadEnc => exact Laws.EncodesInRow.aeadEnc
  | aeadDec => exact Laws.EncodesInRow.aeadDec

/-- A row gives back the operands that the encoding laid out (30_encoding.md R91, R92). -/
theorem assemble_encode {i : Instr} (h : i.wellFormed = true) : i.opcode.assemble (encode i) = i := by
  cases i with
  | pad pos dom =>
    have hpos : pos < 16 := of_decide_eq_true h
    simp [Instr.opcode, Opcode.assemble, encode, Nat.mod_eq_of_lt hpos]
  | _ => simp [Instr.opcode, Opcode.assemble, encode]

theorem decode_encode {i : Instr} (h : i.wellFormed = true) : decode (encode i) = .ok i := by
  rw [decode_of_selected (encode_selected i), assemble_encode h]

/-! ## The word of a word's own fields (30_encoding.md R91, R92)

Each field, put back where `fieldsToWord` puts it, is the word cut to that field's bits. -/

section
variable (w : Word)

theorem tagField_placed : (tagField w).zeroExtend 32 <<< 8 = w &&& 0x0000FF00 := by
  apply BitVec.eq_of_getLsbD_eq
  intro i hi
  interval_cases i <;> simp [tagField]

theorem posField_placed : (BitVec.ofNat 4 (posField w)).zeroExtend 32 <<< 16 = w &&& 0x000F0000 := by
  rw [posField, BitVec.ofNat_toNat, BitVec.setWidth_eq]
  apply BitVec.eq_of_getLsbD_eq
  intro i hi
  interval_cases i <;> simp

theorem domField_placed : (domField w).zeroExtend 32 <<< 20 = w &&& 0x07F00000 := by
  apply BitVec.eq_of_getLsbD_eq
  intro i hi
  interval_cases i <;> simp [domField]

/-- A space bit put back at bit `k` is the word cut to that bit. -/
theorem spaceBit_placed (k : Nat) :
    fieldsToWord.bitOfSpace (spaceOfBit (w.getLsbD k)) <<< k = w &&& BitVec.twoPow 32 k := by
  rw [BitVec.and_twoPow]
  cases w.getLsbD k
  · simp [spaceOfBit]
  · simp [spaceOfBit, fieldsToWord.bitOfSpace, BitVec.twoPow_eq]

theorem aspField_placed : fieldsToWord.bitOfSpace (aspField w) <<< 27 = w &&& 0x08000000 := spaceBit_placed w 27

theorem bspField_placed : fieldsToWord.bitOfSpace (bspField w) <<< 28 = w &&& 0x10000000 := spaceBit_placed w 28

theorem dspField_placed : fieldsToWord.bitOfSpace (dspField w) <<< 29 = w &&& 0x20000000 := spaceBit_placed w 29

end

/-- The command of a row encodes to the row's match with the bits of the word outside the row's mask. -/
theorem encode_assemble (o : Opcode) (w : Word) : encode (o.assemble w) = o.matchWord ||| (w &&& ~~~o.mask) := by
  cases o <;> simp [Opcode.assemble, encode, fieldsToWord, Opcode.matchWord, Opcode.mask, tagField_placed,
    posField_placed, domField_placed, aspField_placed, bspField_placed, dspField_placed, BitVec.or_assoc,
    ← BitVec.and_or_distrib_left]

theorem wellFormed_assemble (o : Opcode) (w : Word) : (o.assemble w).wellFormed = true := by
  cases o with
  | pad => exact decide_eq_true (w.extractLsb' 16 4).isLt
  | _ => rfl

/-- The selecting row's command encodes to the word itself: no bit of a legal word is ignored. -/
theorem encode_assemble_of_selected {o : Opcode} {w : Word} (h : w &&& o.mask = o.matchWord) :
    encode (o.assemble w) = w := by
  calc encode (o.assemble w) = (w &&& o.mask) ||| (w &&& ~~~o.mask) := by rw [encode_assemble, h]
    _ = w &&& (o.mask ||| ~~~o.mask) := (BitVec.and_or_distrib_left).symm
    _ = w := by rw [BitVec.or_not_self, BitVec.and_allOnes]

/-! ## The statements about decode and encode -/

/-- Settles O1: decode answers the row that selects the word, and two selecting rows have the OP of the word. -/
theorem decodeFollowsTheOneSelectingRow : Obligations.DecodeFollowsTheOneSelectingRow := by
  unfold Obligations.DecodeFollowsTheOneSelectingRow
  exact fun w => ⟨fun _ _ ho hp => selected_unique ho hp, fun _ ho => decode_of_selected ho,
    fun hnone => ⟨_, decode_of_no_row hnone⟩⟩

/-- Settles O2: the encoding lies in the command's own row, and that row gives the operands back. -/
theorem decodeOfEncodeIsTheCommand : Obligations.DecodeOfEncodeIsTheCommand := by
  unfold Obligations.DecodeOfEncodeIsTheCommand
  exact fun _ h => decode_encode h

/-- Settles O3: the selecting row fixes the bits inside its mask, and its command's fields are the bits outside. -/
theorem decodedWordIsItsEncoding : Obligations.DecodedWordIsItsEncoding := by
  unfold Obligations.DecodedWordIsItsEncoding
  intro w i h
  obtain ⟨o, ho, rfl⟩ := row_of_decode h
  exact ⟨wellFormed_assemble o w, encode_assemble_of_selected ho⟩

/-- Settles O5: closed words and commands, so encode and decode are evaluated on each. -/
theorem workedEncodings : Obligations.WorkedEncodings := by
  unfold Obligations.WorkedEncodings
  decide

end Sys2Proof

namespace Sys2Proof.Machine

/-! ## The engine's turn (30_encoding.md R95, R98; 60_exceptions.md R246, R256) -/

theorem step_of_no_input {s : State} (h : s.pending = []) : step s = engineTurn s := by
  simp [step, h]

theorem engineTurn_of_idle {s : State} (h : s.busy = false) : engineTurn s = .next s := by
  simp [engineTurn, idle, h]

theorem engineTurn_of_legal {s : State} {i : Instr} (hb : s.busy = true) (hd : decode s.cmdl = .ok i) :
    engineTurn s = exec i s := by
  simp [engineTurn, perform, hb, hd]

theorem engineTurn_of_illegal {s : State} {e : Reject} (hb : s.busy = true) (hd : decode s.cmdl = .error e) :
    engineTurn s = .next (s.complete .illegal) := by
  simp [engineTurn, perform, completeIllegal, hb, hd]

/-! ## PERMUTE with tag 0 (30_encoding.md R96) -/

/-- XORing tag 0 into a byte of S leaves S (30_encoding.md R96). -/
theorem xorInto_zero {n : Nat} (v : Bytes n) {a : Nat} (ha : a < n) : xorInto v a [0] = v := by
  refine bytes_ext fun i _ => ?_
  rw [byteAt_xorInto v a [0] ha]
  split
  · rename_i hi
    obtain rfl : i = a := by simp at hi; omega
    simp
  · rfl

/-- Perm with tag 0 is Core alone (30_encoding.md R96). -/
theorem perm_zero (v : Bytes 48) : perm v 0 = (core (Grid.ofBytes v)).toBytes := by
  rw [perm, xorInto_zero v (by decide)]

/-- PERMUTE has no range, so in every state it has its own effect (40_permutation.md R125). -/
theorem exec_permute (tag : Byte) (s : State) : exec (.permute tag) s = .next ((s.setS (perm s.S tag)).complete .ok) :=
  exec_of_runsNormally (runsNormally_of_no_range (by simp) rfl)

/-! ## The statements about the engine's turn and PERMUTE -/

/-- Settles O4: every mask covers OP and RSV, so a selected word has an assigned OP, RSV = 0 and agrees with its OP's
row; and a refused word's turn is completion with ILLEGAL. -/
theorem illegalEncodingsCompleteWithIllegal : Obligations.IllegalEncodingsCompleteWithIllegal := by
  unfold Obligations.IllegalEncodingsCompleteWithIllegal
  refine ⟨fun w => ?_, fun s e hb hd => ⟨fun hp => ?_, fun rest hp => ?_⟩⟩
  · change _ ↔ (_ ∉ Opcode.all.map Opcode.op ∨ _)
    rw [decode_error_iff]
    refine ⟨fun hnone => ?_, ?_⟩
    · by_cases hop : w.extractLsb' 0 8 ∈ Opcode.all.map Opcode.op
      · obtain ⟨o, -, ho⟩ := List.mem_map.1 hop
        exact .inr (.inr ⟨o, ho, hnone o⟩)
      · exact .inl hop
    · rintro (hop | hrsv | ⟨p, hp, hne⟩) o ho
      · exact hop (op_of_selected ho ▸ List.mem_map_of_mem o.mem_all)
      · exact hrsv (rsv_of_selected ho)
      · obtain rfl : p = o := Opcode.op_injective (hp.trans (op_of_selected ho))
        exact hne ho
  · rw [step_of_no_input hp, engineTurn_of_illegal hb hd]
    rfl
  · rw [step_of_pending hp]
    exact engineTurn_of_illegal (s := s.setPending rest) hb hd

/-- Settles O24: tag 0 leaves S[47], so Perm is Core; and a word that decodes is its command's one encoding. -/
theorem permuteWithTagZeroIsUntagged : Obligations.PermuteWithTagZeroIsUntagged := by
  unfold Obligations.PermuteWithTagZeroIsUntagged
  refine ⟨fun s => ?_, fun w => ⟨fun h => ?_, ?_⟩⟩
  · rw [exec_permute, perm_zero, State.setS_complete_eq]
  · exact (decodedWordIsItsEncoding w _ h).2.symm
  · rintro rfl
    exact decode_encode (i := .permute 0x00) rfl

/-- Settles O6: with no input the step is the engine's turn, and a taken engine turn is the turn of the state without
that input. -/
theorem engineStepPerformsTheDecodedCommand : Obligations.EngineStepPerformsTheDecodedCommand := by
  unfold Obligations.EngineStepPerformsTheDecodedCommand
  refine ⟨fun s i hb hd => ⟨fun hp => ?_, fun rest hp => ?_⟩, fun s hb hp => ?_⟩
  · rw [step_of_no_input hp, engineTurn_of_legal hb hd]
  · rw [step_of_pending hp]
    exact engineTurn_of_legal (s := s.setPending rest) hb hd
  · rw [step_of_no_input hp, engineTurn_of_idle hb]

end Sys2Proof.Machine
end

section
/-! PROOFS. The permutation engine of 40_permutation.md: one column, the three round ends, the rounds as a fold, the
words of Perm; after these rules, the statements about Core, Perm and PERMUTE. -/

namespace Sys2Proof.Machine

/-! ## The grid by words and by columns (10_state.md R20) -/

/-- The grid whose word `j` is `f j`. -/
def Grid.ofWords (f : Nat → Word) : Grid :=
  ⟨⟨f 0, f 4, f 8⟩, ⟨f 1, f 5, f 9⟩, ⟨f 2, f 6, f 10⟩, ⟨f 3, f 7, f 11⟩⟩

theorem Grid.word_ofWords (f : Nat → Word) {j : Nat} (hj : j < 12) : (Grid.ofWords f).word j = f j := by
  interval_cases j <;> rfl

/-- Two grids with the same twelve words are equal. -/
theorem Grid.ext_word {g h : Grid} (hw : ∀ j, j < 12 → g.word j = h.word j) : g = h := by
  calc g = Grid.ofWords g.word := rfl
    _ = Grid.ofWords h.word := by simp [Grid.ofWords, hw]
    _ = h := rfl

/-- Reading the words of `fromWords(w)` gives `w` back (00_scope.md R11). -/
theorem Grid.ofBytes_toBytes (g : Grid) : Grid.ofBytes g.toBytes = g :=
  Grid.ext_word fun j hj => by rw [ofBytes_word _ hj, stateWord_toBytes g hj]

/-- Column `c` of the grid: words c, 4+c and 8+c. -/
def Grid.column (g : Grid) (c : Nat) : Column := ⟨g.word c, g.word (4 + c), g.word (8 + c)⟩

/-! ## Column step, round end and rounds (40_permutation.md R120 to R122) -/

/-- The columns are independent lanes (40_permutation.md R120, R124). -/
theorem column_columnSteps (g : Grid) {c : Nat} (hc : c < 4) :
    (columnSteps g).column c = columnStep (g.column c) := by
  interval_cases c <;> rfl

theorem roundEnd_of_mod_four_eq_zero {round : Nat} (h : round % 4 = 0) (g : Grid) : roundEnd round g =
    g.setRow0 (g.word 1 ^^^ (0x9e377900 ||| BitVec.ofNat 32 round)) (g.word 0) (g.word 3) (g.word 2) :=
  if_pos h

theorem roundEnd_of_mod_four_eq_two {round : Nat} (h : round % 4 = 2) (g : Grid) :
    roundEnd round g = g.setRow0 (g.word 2) (g.word 3) (g.word 0) (g.word 1) := by
  rw [roundEnd, if_neg (by omega), if_pos h]
  rfl

theorem roundEnd_of_odd {round : Nat} (h : round % 2 = 1) (g : Grid) : roundEnd round g = g := by
  rw [roundEnd, if_neg (by omega), if_neg (by omega)]

/-- A new row 0 leaves rows 1 and 2. -/
theorem word_setRow0_of_four_le (g : Grid) (w0 w1 w2 w3 : Word) {j : Nat} (h4 : 4 ≤ j) (h12 : j < 12) :
    (g.setRow0 w0 w1 w2 w3).word j = g.word j := by
  interval_cases j <;> rfl

/-- The round end moves words of row 0 only (40_permutation.md R121, R124). -/
theorem word_roundEnd_of_four_le (round : Nat) (g : Grid) {j : Nat} (h4 : 4 ≤ j) (h12 : j < 12) :
    (roundEnd round g).word j = g.word j := by
  have hround : round % 4 = 0 ∨ round % 4 = 2 ∨ round % 2 = 1 := by omega
  rcases hround with h | h | h
  · rw [roundEnd_of_mod_four_eq_zero h, word_setRow0_of_four_le _ _ _ _ _ h4 h12]
  · rw [roundEnd_of_mod_four_eq_two h, word_setRow0_of_four_le _ _ _ _ _ h4 h12]
  · rw [roundEnd_of_odd h]

/-- Rounds `n` down to 1 are the fold that runs round `n - k` at its place `k` (40_permutation.md R122). -/
theorem rounds_eq_foldl (n : Nat) (g : Grid) :
    rounds n g = (List.range n).foldl (fun u k => roundEnd (n - k) (columnSteps u)) g := by
  induction n generalizing g with
  | zero => rfl
  | succ n ih =>
    simp only [rounds, ih, List.range_succ_eq_map, List.foldl_cons, List.foldl_map, Nat.sub_zero,
      Nat.succ_eq_add_one, Nat.add_sub_add_right]

/-! ## The tag in word 11, and Perm (40_permutation.md R123) -/

/-- XORing into byte 3 of a little-endian word is XORing into its high byte. -/
theorem le32_xor_high (b0 b1 b2 b3 t : Byte) :
    le32 b0 b1 b2 (b3 ^^^ t) = le32 b0 b1 b2 b3 ^^^ (t.zeroExtend 32 <<< 24) := by
  apply BitVec.eq_of_getLsbD_eq
  intro i hi
  interval_cases i <;> simp [le32]

/-- The tag in byte 47 is the tag in the high byte of word 11 (40_permutation.md R123). -/
theorem stateWord_xorRange_last (v : Bytes 48) (tag : Byte) {j : Nat} (hj : j < 12) :
    stateWord (xorRange v 47 1 (fun _ => tag)) j =
      if j = 11 then stateWord v 11 ^^^ (tag.zeroExtend 32 <<< 24) else stateWord v j := by
  have hkept : ∀ i, i < 47 → byteAt (xorRange v 47 1 (fun _ => tag)) i = byteAt v i := fun i hi => by
    rw [byteAt_xorRange _ _ _ _ (by omega), if_neg (by omega)]
  have hlast : byteAt (xorRange v 47 1 (fun _ => tag)) 47 = byteAt v 47 ^^^ tag := by
    rw [byteAt_xorRange _ _ _ _ (by omega), if_pos (by omega)]
  split
  next h11 =>
    subst h11
    calc stateWord (xorRange v 47 1 (fun _ => tag)) 11
      _ = le32 (byteAt v 44) (byteAt v 45) (byteAt v 46) (byteAt v 47 ^^^ tag) := by
        rw [← hkept 44 (by omega), ← hkept 45 (by omega), ← hkept 46 (by omega), ← hlast]
        rfl
      _ = stateWord v 11 ^^^ (tag.zeroExtend 32 <<< 24) := le32_xor_high ..
  next => exact wordAt_congr fun i _ hi => hkept i (by omega)

/-- Perm is Core on the state with the tag in byte 47 (40_permutation.md R123). -/
theorem perm_eq_core (v : Bytes 48) (tag : Byte) :
    perm v tag = (core (Grid.ofBytes (xorRange v 47 1 (fun _ => tag)))).toBytes := by
  rw [perm, xorInto_singleton v tag (by decide)]

/-! ## The source's vector (40_permutation.md R125) -/

/-- Word `i` of the source's input state. -/
def sourceWord (i : Nat) : Word := BitVec.ofNat 32 (i * i * i + i * 0x9e3779b9)

/-- The state whose byte `i` is byte `i mod 4` of word `i / 4` has those words. -/
theorem ofBytes_ofFn_wordByte (f : Nat → Word) :
    Grid.ofBytes (Vector.ofFn fun i => wordByte (f (i.val / 4)) (i.val % 4)) = Grid.ofWords f := by
  have hbytes : Vector.ofFn (fun i : Fin 48 => wordByte (f (i.val / 4)) (i.val % 4)) = (Grid.ofWords f).toBytes :=
    congrArg Vector.ofFn (funext fun i => by rw [Grid.word_ofWords f (by omega)])
  rw [hbytes, Grid.ofBytes_toBytes]

/-- Core on the source's words gives the words the source lists; a closed computation of 24 rounds. -/
theorem core_sourceWord : (List.range 12).map (core (Grid.ofWords sourceWord)).word =
    [0xba11c85a, 0x91bad119, 0x380ce880, 0xd24c2c68, 0x3eceffea, 0x277a921c,
     0x4f73a0bd, 0xda5a9cd8, 0x84b673f0, 0x34e52ff7, 0x9e2bef49, 0xf41bb8d6] := by decide +kernel

/-! ## The statements about the permutation -/

/-- Settles O23: byte 47 is the high byte of word 11, and the words of `fromWords(w)` are those of `w`. -/
theorem permFoldsTheTagAndRunsCore : Obligations.PermFoldsTheTagAndRunsCore := by
  unfold Obligations.PermFoldsTheTagAndRunsCore
  exact fun v tag j hj => ⟨ofBytes_word v hj, stateWord_xorRange_last v tag hj,
    by rw [perm_eq_core, stateWord_toBytes _ hj]⟩

/-- Settles O22: each column steps by itself, the round end has one rule for each remainder of the round, and the
rounds are a fold by induction on their number. -/
theorem coreFollowsTheRoundRules : Obligations.CoreFollowsTheRoundRules := by
  unfold Obligations.CoreFollowsTheRoundRules
  refine ⟨fun g c hc => ?_, fun g round _ _ => ⟨fun h => ?_, fun h => ?_, fun h => roundEnd_of_odd h g,
    fun j h4 h12 => word_roundEnd_of_four_le round g h4 h12⟩, rounds_eq_foldl 24⟩
  · have hcol := column_columnSteps g hc
    exact ⟨congrArg Column.bot hcol, congrArg Column.mid hcol, congrArg Column.top hcol⟩
  · rw [roundEnd_of_mod_four_eq_zero h]
    exact ⟨rfl, rfl, rfl, rfl⟩
  · rw [roundEnd_of_mod_four_eq_two h]
    exact ⟨rfl, rfl, rfl, rfl⟩

/-- Settles O25: PERMUTE has its own effect in every state, and the tag enters Perm only by byte 47. -/
theorem permuteAppliesPerm : Obligations.PermuteAppliesPerm := by
  unfold Obligations.PermuteAppliesPerm
  exact fun tag s => ⟨by rw [exec_permute, State.setS_complete_eq], by rw [perm_eq_core, perm_zero]⟩

/-- Settles O26: with tag 0 PERMUTE is Core on the words of S, which are the source's. -/
theorem permutationSourceVector : Obligations.PermutationSourceVector := by
  unfold Obligations.PermutationSourceVector
  intro s hS
  refine ⟨_, exec_permute 0 s, ?_⟩
  have hperm : perm s.S 0 = (core (Grid.ofWords sourceWord)).toBytes := by
    rw [perm_zero, hS]
    exact congrArg (fun g => (core g).toBytes) (ofBytes_ofFn_wordByte sourceWord)
  rw [State.complete_S, State.setS_S, hperm, ← core_sourceWord]
  exact List.map_congr_left fun j hj => stateWord_toBytes _ (List.mem_range.1 hj)

end Sys2Proof.Machine
end

section
/-! PROOFS. The buffer algebra of 41_buffer_algebra.md: a command whose own effect is one write of its destination, the
bytes of ranges XORed together, the lanes of CtCmp; after these rules, the statements about ZERO, COPY, XOR, XOR2 and
CMP. -/

namespace Sys2Proof.Machine

/-! ## A command that writes its destination and completes (41_buffer_algebra.md R141 to R144) -/

/-- A command other than CMP whose own effect is one write of its destination completes with OK; byte `a` of the
destination is then `f a`, and nothing else has changed but STATUS. -/
theorem exec_of_ownEffect_writeRange {i : Instr} {s : State} {d : Range} {v : List Byte} {f : Nat → Byte}
    (h : RunsNormally i s) (hi : ∀ asp bsp, i ≠ .cmp asp bsp) (hd : destination i s = some d)
    (heff : ownEffect i s = (s.writeRange d v).complete .ok) (hlen : v.length = d.len)
    (hval : ∀ a, d.addr ≤ a → a - d.addr < d.len → v.getD (a - d.addr) 0 = f a) :
    ∃ t, exec i s = .next t ∧ Completed t .ok ∧ SameOperands s t ∧ t.cmpAcc = s.cmpAcc ∧
      ∀ sp a, (InRange d sp a → byteIn t sp a = f a) ∧ (¬ InRange d sp a → byteIn t sp a = byteIn s sp a) := by
  have hexec := exec_of_runsNormally h
  have hfits : Fits d := h.fits (by simp [ranges, hd])
  refine ⟨_, hexec, ?_, exec_sameOperands hexec, exec_cmpAcc hi hexec, fun sp a => ?_⟩ <;> rw [heff]
  · exact ⟨rfl, rfl, rfl⟩
  · rw [byteIn_complete]
    refine ⟨fun hin => ?_, byteIn_writeRange_outside s hlen hfits⟩
    obtain ⟨-, hlo, hhi⟩ := id hin
    rw [byteIn_writeRange_inside s hlen hfits hin, hval a hlo (by omega)]

/-! ## The bytes of two ranges, XORed (41_buffer_algebra.md R143, R144) -/

theorem length_xorBytes_readRange {s : State} {r q : Range} (hr : Fits r) (hq : Fits q) (hlen : r.len = q.len) :
    (xorBytes (s.readRange r) (s.readRange q)).length = r.len := by
  rw [length_xorBytes, length_readRange hr, length_readRange hq, hlen, Nat.min_self]

theorem getD_xorBytes_readRange (s : State) {r q : Range} (hr : Fits r) (hq : Fits q) {k : Nat} (hkr : k < r.len)
    (hkq : k < q.len) : (xorBytes (s.readRange r) (s.readRange q)).getD k 0 =
      byteIn s r.space (r.addr + k) ^^^ byteIn s q.space (q.addr + k) := by
  rw [getD_xorBytes _ _ (by rwa [length_readRange hr]) (by rwa [length_readRange hq]), getD_readRange s r hkr,
    getD_readRange s q hkq]

/-! ## The lanes of CtCmp (41_buffer_algebra.md R145) -/

/-- A byte moved to lane `m` has its bit `k` at bit `k` of that lane, and no bit in another lane. -/
theorem getLsbD_byte_in_lane (x : Byte) {m lane k : Nat} (hlane : lane < 4) (hk : k < 8) :
    (x.zeroExtend 32 <<< (8 * m)).getLsbD (8 * lane + k) = true ↔ m = lane ∧ x.getLsbD k = true := by
  rw [BitVec.getLsbD_shiftLeft, BitVec.zeroExtend, BitVec.getLsbD_setWidth]
  rcases lt_trichotomy m lane with hlt | rfl | hgt
  · simp [BitVec.getLsbD_of_ge x (8 * lane + k - 8 * m) (by omega), hlt.ne]
  · simp [show 8 * m + k < 32 by omega, show k < 32 by omega]
  · simp [show 8 * lane + k < 8 * m by omega, hgt.ne']

/-- The comparison from byte `i` on only sets bits: those in which the rest of the two sequences differ. -/
theorem getLsbD_ctCmpFrom {a b : List Byte} (hlen : a.length = b.length) (i : Nat) (acc : Word) {lane k : Nat}
    (hlane : lane < 4) (hk : k < 8) : (ctCmpFrom i acc a b).getLsbD (8 * lane + k) = true ↔
      acc.getLsbD (8 * lane + k) = true ∨
        ∃ j, j < a.length ∧ (i + j) % 4 = lane ∧ (a.getD j 0 ^^^ b.getD j 0).getLsbD k = true := by
  induction a generalizing b i acc with
  | nil => simp [ctCmpFrom]
  | cons x xs ih =>
    cases b with
    | nil => cases hlen
    | cons y ys =>
      rw [ctCmpFrom, ih (Nat.succ.inj hlen), BitVec.getLsbD_or, Bool.or_eq_true, getLsbD_byte_in_lane _ hlane hk,
        or_assoc, List.length_cons, Nat.exists_lt_succ_left]
      simp only [List.getD_cons_zero, List.getD_cons_succ, Nat.add_zero, Nat.add_assoc, Nat.add_comm 1]

theorem getLsbD_ctCmp {a b : List Byte} (hlen : a.length = b.length) {lane k : Nat} (hlane : lane < 4) (hk : k < 8) :
    (ctCmp a b).getLsbD (8 * lane + k) = true ↔
      ∃ j, j < a.length ∧ j % 4 = lane ∧ (a.getD j 0 ^^^ b.getD j 0).getLsbD k = true := by
  rw [ctCmp, getLsbD_ctCmpFrom hlen 0 0 hlane hk]
  simp only [BitVec.ofNat_eq_ofNat, BitVec.getLsbD_zero, Bool.false_eq_true, false_or, Nat.zero_add]

/-- CtCmp of two sequences of one length is 0 exactly if they are the same: a byte that differs sets a bit of its
lane. -/
theorem ctCmp_eq_zero_iff {a b : List Byte} (hlen : a.length = b.length) : ctCmp a b = 0 ↔ a = b := by
  constructor
  · intro hzero
    refine List.ext_getElem hlen fun j hja hjb => BitVec.eq_of_getLsbD_eq fun k hk => ?_
    by_contra hne
    have hbit : (a.getD j 0 ^^^ b.getD j 0).getLsbD k = true := by
      rw [List.getD_eq_getElem _ _ hja, List.getD_eq_getElem _ _ hjb, BitVec.getLsbD_xor]
      simpa using hne
    have hset := (getLsbD_ctCmp hlen (Nat.mod_lt j (by decide)) hk).2 ⟨j, hja, rfl, hbit⟩
    simp [hzero] at hset
  · rintro rfl
    refine BitVec.eq_of_getLsbD_eq fun n hn => ?_
    have hclear := getLsbD_ctCmp (a := a) rfl (lane := n / 8) (k := n % 8) (by omega) (by omega)
    rw [Nat.div_add_mod] at hclear
    simpa using hclear

/-! ## The statements about the buffer algebra -/

/-- Settles O27: ZERO is one write of zeros to its destination. -/
theorem zeroClearsItsRange : Obligations.ZeroClearsItsRange := by
  unfold Obligations.ZeroClearsItsRange
  intro dsp s h
  exact exec_of_ownEffect_writeRange (d := s.rangeD dsp s.len.toNat) h (by simp) rfl rfl (length_zeros _)
    fun a _ _ => getD_zeros _ _

/-- Settles O28: COPY is one write to its destination of the bytes read from A before. -/
theorem copyCopiesItsRange : Obligations.CopyCopiesItsRange := by
  unfold Obligations.CopyCopiesItsRange
  intro asp dsp s h
  have hA : Fits (s.rangeA asp s.len.toNat) := h.fits (by simp [ranges, sources])
  exact exec_of_ownEffect_writeRange (d := s.rangeD dsp s.len.toNat) h (by simp) rfl rfl (length_readRange hA)
    fun a _ hk => getD_readRange s (s.rangeA asp s.len.toNat) hk

/-- Settles O29: XOR is one write to its destination of the XOR of the bytes read from A and from D before. -/
theorem xorXorsIntoItsRange : Obligations.XorXorsIntoItsRange := by
  unfold Obligations.XorXorsIntoItsRange
  intro asp dsp s h
  have hA : Fits (s.rangeA asp s.len.toNat) := h.fits (by simp [ranges, sources])
  have hD : Fits (s.rangeD dsp s.len.toNat) := h.fits (by simp [ranges, destination])
  refine exec_of_ownEffect_writeRange (d := s.rangeD dsp s.len.toNat) h (by simp) rfl rfl
    (length_xorBytes_readRange hA hD rfl) fun a ha hk => ?_
  rw [getD_xorBytes_readRange s hA hD hk hk, Nat.add_sub_cancel' ha]
  rfl

/-- Settles O30: XOR2 is one write to its destination of the XOR of the bytes read from A and from B before. -/
theorem xor2XorsTwoRangesIntoAThird : Obligations.Xor2XorsTwoRangesIntoAThird := by
  unfold Obligations.Xor2XorsTwoRangesIntoAThird
  intro asp bsp dsp s h
  have hA : Fits (s.rangeA asp s.len.toNat) := h.fits (by simp [ranges, sources])
  have hB : Fits (s.rangeB bsp s.len.toNat) := h.fits (by simp [ranges, sources])
  exact exec_of_ownEffect_writeRange (d := s.rangeD dsp s.len.toNat) h (by simp) rfl rfl
    (length_xorBytes_readRange hA hB rfl) fun a _ hk => getD_xorBytes_readRange s hA hB hk hk

/-- Settles O31: CMP compares the bytes read from A and B, and CtCmp is 0 exactly for equal sequences. -/
theorem cmpSetsTheAccumulator : Obligations.CmpSetsTheAccumulator := by
  unfold Obligations.CmpSetsTheAccumulator
  intro asp bsp s h
  have hA : Fits (s.rangeA asp s.len.toNat) := h.fits (by simp [ranges, sources])
  have hB : Fits (s.rangeB bsp s.len.toNat) := h.fits (by simp [ranges, sources])
  constructor
  · rw [exec_of_runsNormally h, ownEffect, readRange_eq_map s hA, readRange_eq_map s hB, State.setCmpAcc_complete_eq]
    rfl
  · rw [Ne, ctCmp_eq_zero_iff (by simp), List.map_inj_left]
    simp

/-- Settles O32, by the lane law of the comparison from byte 0 with an empty accumulator. -/
theorem ctCmpOrsEveryByteIntoItsLane : Obligations.CtCmpOrsEveryByteIntoItsLane := by
  unfold Obligations.CtCmpOrsEveryByteIntoItsLane
  exact fun a b hlen lane k hlane hk => getLsbD_ctCmp hlen hlane hk

end Sys2Proof.Machine
end

section
/-! PROOFS. The sponge sequencer of 42_sponge.md: the slices of a register field that Setup and Finalize XOR in, one
block of each data stream, the streams as folds over the block numbers, and the commands; after these rules, the
statements about SETUP, FINALIZE, PAD, ABSORB, ENCSTREAM and DECSTREAM. -/

namespace Sys2Proof.Machine

/-! ## Byte sequences -/

theorem getD_map_range (f : Nat → Byte) {n j : Nat} (hj : j < n) : ((List.range n).map f).getD j 0 = f j := by
  simp [List.getD_eq_getElem?_getD, hj]

theorem xorBytes_comm (a b : List Byte) : xorBytes a b = xorBytes b a :=
  List.zipWith_comm_of_comm BitVec.xor_comm

/-! ## Setup and Finalize, byte by byte (42_sponge.md R170, R172) -/

/-- XORing a slice of a register field into S. -/
theorem xorInto_bytesFrom {n : Nat} (v : Bytes 48) (field : Bytes n) {a start len : Nat} (hfield : start + len ≤ n)
    (hfits : a + len ≤ 48) :
    xorInto v a (bytesFrom field start len) = xorRange v a len (fun j => byteAt field (start + j)) :=
  xorInto_eq_xorRange_of v (length_bytesFrom field hfield) hfits fun _ hj => getD_bytesFrom field start len hj

/-- XORing the first bytes of a register field into S. -/
theorem xorInto_take {n : Nat} (v : Bytes 48) (field : Bytes n) {a len : Nat} (hfield : len ≤ n)
    (hfits : a + len ≤ 48) : xorInto v a (field.toList.take len) = xorRange v a len (fun j => byteAt field j) :=
  xorInto_eq_xorRange_of v (List.length_take_of_le (by simpa using hfield)) hfits fun _ hj => getD_take hj

theorem getD_le64 (x : BitVec 64) {j : Nat} (hj : j < 8) : (le64 x).getD j 0 = x.extractLsb' (8 * j) 8 :=
  getD_map_range _ hj

/-- The state before Setup's first Perm: the domain constant and CTX on a zero state (42_sponge.md R170). -/
theorem putBytes_constant_context (pre ctx : Bytes 8) : putBytes (putBytes zeroState 0 pre.toList) 8 ctx.toList =
    Vector.ofFn (fun j => if j.val < 8 then byteAt pre j.val
      else if j.val < 16 then byteAt ctx (j.val - 8) else 0) := by
  refine bytes_ext fun i hi => ?_
  rw [byteAt_ofFn _ hi, byteAt_putBytes, byteAt_putBytes]
  simp only [Vector.length_toList]
  by_cases hpre : i < 8
  · rw [if_neg (by omega), if_pos (by omega), if_pos hpre]
    rfl
  · by_cases hctx : i < 16
    · rw [if_pos (by omega), if_neg hpre, if_pos hctx]
      rfl
    · rw [if_neg (by omega), if_neg (by omega), if_neg hpre, if_neg hctx]
      exact (byteAt_replicate 0 i).trans (if_pos hi)

theorem finalizeOnce_eq (v : Bytes 48) (key : Bytes 32) (ft : Byte) :
    finalizeOnce v key.toList ft = perm (xorRange v 16 32 (fun j => byteAt key j)) ft :=
  congrArg (fun u => perm u ft) (xorInto_eq_xorRange_of v key.length_toList (by decide) fun _ _ => rfl)

/-! ## One block of a stream (42_sponge.md R176, R178, R180) -/

/-- The output of one block: its `n` bytes XORed with the rate. -/
def xorRate (v : Bytes 48) (n : Nat) (b : Nat → Byte) : List Byte :=
  (List.range n).map (fun j => b j ^^^ byteAt v j)

@[simp] theorem length_xorRate (v : Bytes 48) (n : Nat) (b : Nat → Byte) : (xorRate v n b).length = n :=
  (List.length_map _).trans List.length_range

theorem xorBytes_eq_xorRate_of (v : Bytes 48) {n : Nat} {bs : List Byte} {b : Nat → Byte}
    (hl : bs.length = n) (h : n ≤ 48) (hb : ∀ j, j < n → bs.getD j 0 = b j) :
    xorBytes bs (bytesFrom v 0 n) = xorRate v n b := by
  rw [xorBytes_bytesFrom_eq_map bs v hl h]
  exact List.map_congr_left fun j hj => by rw [hb j (List.mem_range.1 hj)]

/-- Putting the output of a block back into the rate. -/
theorem putBytes_xorRate (v : Bytes 48) {n : Nat} (b : Nat → Byte) (h : n ≤ 48) :
    putBytes v 0 (xorRate v n b) = putRate v n (fun j => b j ^^^ byteAt v j) :=
  putBytes_eq_putRate_of v (length_xorRate v n b) h fun _ hj => getD_map_range _ hj

section
variable (tag : Byte) (dom : BitVec 7) (v : Bytes 48) {m : List Byte}

theorem absorbBlocks_zero (hm : m.length < 16) : absorbBlocks tag dom 0 v m =
    perm (padSpec (xorRange v 0 m.length (fun j => m.getD j 0)) m.length dom) tag := by
  rw [← pad_eq_padSpec _ dom hm, ← xorInto_eq_xorRange v 0 m (by omega)]
  rfl

theorem absorbBlocks_succ (q : Nat) (hm : 16 ≤ m.length) : absorbBlocks tag dom (q + 1) v m =
    absorbBlocks tag dom q (perm (xorRange v 0 16 (fun j => m.getD j 0)) tag) (m.drop 16) := by
  rw [← xorInto_eq_xorRange_of v (List.length_take_of_le hm) (by decide) fun _ hj => getD_take hj]
  rfl

/-- A message shorter than a block is absorbed by the partial block alone, with Pad and the last Perm. -/
theorem absorb_of_lt_block (hm : m.length < 16) :
    absorb v m tag dom = perm (padSpec (xorInto v 0 m) m.length dom) tag := by
  rw [← pad_eq_padSpec _ dom hm, absorb, Nat.div_eq_of_lt hm]
  rfl

theorem encBlocks_zero (hm : m.length < 16) : encBlocks tag dom 0 v m =
    (perm (padSpec (putRate v m.length (fun j => m.getD j 0 ^^^ byteAt v j)) m.length dom) tag,
      xorRate v m.length (fun j => m.getD j 0)) := by
  have h48 : m.length ≤ 48 := by omega
  rw [← pad_eq_padSpec _ dom hm, ← putBytes_xorRate v _ h48, ← xorBytes_eq_xorRate_of v rfl h48 fun _ _ => rfl]
  rfl

theorem encBlocks_succ (q : Nat) (hm : 16 ≤ m.length) : encBlocks tag dom (q + 1) v m =
    let r := encBlocks tag dom q (perm (putRate v 16 (fun j => m.getD j 0 ^^^ byteAt v j)) tag) (m.drop 16)
    (r.1, xorRate v 16 (fun j => m.getD j 0) ++ r.2) := by
  rw [← putBytes_xorRate v _ (by decide),
    ← xorBytes_eq_xorRate_of v (List.length_take_of_le hm) (by decide) fun _ hj => getD_take hj]
  rfl

theorem decBlocks_zero (hm : m.length < 16) : decBlocks tag dom 0 v m =
    (perm (padSpec (putRate v m.length (fun j => m.getD j 0)) m.length dom) tag,
      xorRate v m.length (fun j => m.getD j 0)) := by
  have h48 : m.length ≤ 48 := by omega
  rw [← pad_eq_padSpec _ dom hm, ← xorBytes_eq_xorRate_of v rfl h48 fun _ _ => rfl,
    ← putBytes_eq_putRate_of v rfl h48 fun _ _ => rfl]
  rfl

theorem decBlocks_succ (q : Nat) (hm : 16 ≤ m.length) : decBlocks tag dom (q + 1) v m =
    let r := decBlocks tag dom q (perm (putRate v 16 (fun j => m.getD j 0)) tag) (m.drop 16)
    (r.1, xorRate v 16 (fun j => m.getD j 0) ++ r.2) := by
  have hblock := List.length_take_of_le hm
  rw [← xorBytes_eq_xorRate_of v hblock (by decide) fun _ hj => getD_take hj,
    ← putBytes_eq_putRate_of v hblock (by decide) fun _ hj => getD_take hj]
  rfl

end

/-! ## The streams as folds over the block numbers (42_sponge.md R176, R178, R180) -/

/-- Byte `j` of block `i` of a message. -/
def blockByte (m : List Byte) (i j : Nat) : Byte := m.getD (16 * i + j) 0

theorem blockByte_zero (m : List Byte) : blockByte m 0 = fun j => m.getD j 0 :=
  funext fun j => congrArg (fun k => m.getD k 0) (show 16 * 0 + j = j by omega)

/-- Without its first block, a message has block `i + 1` as block `i`. -/
theorem blockByte_drop (m : List Byte) (i : Nat) : blockByte (m.drop 16) i = blockByte m (i + 1) :=
  funext fun j => calc (m.drop 16).getD (16 * i + j) 0
    _ = m.getD (16 + (16 * i + j)) 0 := getD_drop m 16 _
    _ = m.getD (16 * (i + 1) + j) 0 := congrArg (fun k => m.getD k 0) (by omega)

/-- A recursion that takes the full blocks of a message one by one, and then the partial block, is the fold over the
block numbers. -/
theorem blockLoop_eq_foldl {α β : Type} {F : Nat → α → List Byte → β} {step : α → (Nat → Byte) → α}
    {last : α → (Nat → Byte) → Nat → β}
    (hzero : ∀ x m, m.length < 16 → F 0 x m = last x (fun j => m.getD j 0) m.length)
    (hsucc : ∀ q x m, 16 ≤ m.length → F (q + 1) x m = F q (step x (fun j => m.getD j 0)) (m.drop 16))
    {q : Nat} (x : α) {m : List Byte} (hq : m.length / 16 = q) :
    F q x m = last ((List.range q).foldl (fun y i => step y (blockByte m i)) x) (blockByte m q) (m.length % 16) := by
  induction q generalizing x m with
  | zero =>
    have hlt : m.length < 16 := by omega
    rw [hzero x m hlt, ← blockByte_zero, Nat.mod_eq_of_lt hlt, List.range_zero, List.foldl_nil]
  | succ q ih =>
    have hdrop : (m.drop 16).length / 16 = q := by rw [List.length_drop]; omega
    have hrest : (m.drop 16).length % 16 = m.length % 16 := by rw [List.length_drop]; omega
    rw [hsucc q x m (by omega), ih _ hdrop, hrest, ← blockByte_zero, List.range_succ_eq_map, List.foldl_cons,
      List.foldl_map]
    simp only [blockByte_drop]

/-- One full block of a duplex stream, on S and the output so far. `back` gives the byte that goes back into the rate,
from the byte of the block and the byte of S: their XOR to encrypt, the byte of the block to decrypt. -/
def duplexStep (back : Byte → Byte → Byte) (tag : Byte) (p : Bytes 48 × List Byte) (b : Nat → Byte) :
    Bytes 48 × List Byte :=
  (perm (putRate p.1 16 (fun j => back (b j) (byteAt p.1 j))) tag, p.2 ++ xorRate p.1 16 b)

/-- The partial block of `n` bytes that ends a duplex stream, with Pad and the last Perm. -/
def duplexLast (back : Byte → Byte → Byte) (tag : Byte) (dom : BitVec 7) (p : Bytes 48 × List Byte) (b : Nat → Byte)
    (n : Nat) : Bytes 48 × List Byte :=
  (perm (padSpec (putRate p.1 n (fun j => back (b j) (byteAt p.1 j))) n dom) tag, p.2 ++ xorRate p.1 n b)

/-- A duplex stream as the spec's loop over the block numbers. -/
def duplexLoop (back : Byte → Byte → Byte) (tag : Byte) (dom : BitVec 7) (v : Bytes 48) (m : List Byte) :
    Bytes 48 × List Byte :=
  duplexLast back tag dom
    ((List.range (m.length / 16)).foldl (fun p i => duplexStep back tag p (blockByte m i)) (v, []))
    (blockByte m (m.length / 16)) (m.length % 16)

/-- The state and output of a stream, behind the output that stands before it. -/
def afterOutput (out : List Byte) (r : Bytes 48 × List Byte) : Bytes 48 × List Byte := (r.1, out ++ r.2)

theorem afterOutput_append (out c : List Byte) (r : Bytes 48 × List Byte) :
    afterOutput (out ++ c) r = afterOutput out (r.1, c ++ r.2) :=
  Prod.ext rfl (List.append_assoc out c r.2)

theorem absorb_eq_foldl (v : Bytes 48) (m : List Byte) (tag : Byte) (dom : BitVec 7) :
    absorb v m tag dom = perm (padSpec (xorRange ((List.range (m.length / 16)).foldl
      (fun u i => perm (xorRange u 0 16 (blockByte m i)) tag) v) 0 (m.length % 16)
        (blockByte m (m.length / 16))) (m.length % 16) dom) tag :=
  blockLoop_eq_foldl (F := absorbBlocks tag dom) (step := fun u b => perm (xorRange u 0 16 b) tag)
    (last := fun u b n => perm (padSpec (xorRange u 0 n b) n dom) tag)
    (fun u _ hm => absorbBlocks_zero tag dom u hm) (fun q u _ hm => absorbBlocks_succ tag dom u q hm) v rfl

theorem encStream_eq_duplexLoop (v : Bytes 48) (m : List Byte) (tag : Byte) (dom : BitVec 7) :
    encStream v m tag dom = duplexLoop (fun b x => b ^^^ x) tag dom v m :=
  blockLoop_eq_foldl (F := fun q (p : Bytes 48 × List Byte) m => afterOutput p.2 (encBlocks tag dom q p.1 m))
    (step := duplexStep (fun b x => b ^^^ x) tag) (last := duplexLast (fun b x => b ^^^ x) tag dom)
    (fun p _ hm => by rw [encBlocks_zero tag dom p.1 hm]; rfl)
    (fun q p _ hm => by rw [encBlocks_succ tag dom p.1 q hm]; exact (afterOutput_append ..).symm)
    (v, []) rfl

theorem decStream_eq_duplexLoop (v : Bytes 48) (c : List Byte) (tag : Byte) (dom : BitVec 7) :
    decStream v c tag dom = duplexLoop (fun b _ => b) tag dom v c :=
  blockLoop_eq_foldl (F := fun q (p : Bytes 48 × List Byte) c => afterOutput p.2 (decBlocks tag dom q p.1 c))
    (step := duplexStep (fun b _ => b) tag) (last := duplexLast (fun b _ => b) tag dom)
    (fun p _ hc => by rw [decBlocks_zero tag dom p.1 hc]; rfl)
    (fun q p _ hc => by rw [decBlocks_succ tag dom p.1 q hc]; exact (afterOutput_append ..).symm)
    (v, []) rfl

/-! ## Decryption inverts encryption (42_sponge.md R182) -/

/-- Both streams put the ciphertext block back into the rate, so they go through the same states, and XORing with the
same rate twice gives the plaintext back. -/
theorem decBlocks_encBlocks (tag : Byte) (dom : BitVec 7) (q : Nat) (v : Bytes 48) {m : List Byte}
    (hq : m.length / 16 = q) :
    decBlocks tag dom q v (encBlocks tag dom q v m).2 = ((encBlocks tag dom q v m).1, m) := by
  induction q generalizing v m with
  | zero =>
    have hrate : (bytesFrom v 0 m.length).length = m.length := length_bytesFrom v (by omega)
    have hlen : (xorBytes m (bytesFrom v 0 m.length)).length = m.length := by
      rw [length_xorBytes, hrate, Nat.min_self]
    simp only [encBlocks, decBlocks, hlen, xorBytes_cancel m _ hrate.ge]
  | succ q ih =>
    have hdrop : (m.drop 16).length / 16 = q := by rw [List.length_drop]; omega
    have hblock : (m.take 16).length = 16 := List.length_take_of_le (by omega)
    have hrate : (bytesFrom v 0 16).length = 16 := length_bytesFrom v (by decide)
    have hlen : (xorBytes (m.take 16) (bytesFrom v 0 16)).length = 16 := by
      rw [length_xorBytes, hblock, hrate, Nat.min_self]
    simp only [encBlocks, decBlocks, List.take_left' hlen, List.drop_left' hlen, ih _ hdrop,
      xorBytes_cancel _ _ (hblock.trans hrate.symm).le, List.take_append_drop]

/-! ## The commands (42_sponge.md R171 to R183) -/

/-- SETUP has no range, so in every state it has its own effect (42_sponge.md R171). -/
theorem exec_setup (tag : Byte) (s : State) : exec (.setup tag) s =
    .next ((s.setS (setup s.cfg s.key.toList s.ctx.toList s.iv.toList s.msgid tag)).complete .ok) :=
  exec_of_runsNormally (runsNormally_of_no_range (by simp) rfl)

/-- FINALIZE has no range, so in every state it has its own effect (42_sponge.md R173). -/
theorem exec_finalize (tag : Byte) (s : State) :
    exec (.finalize tag) s = .next ((s.setS (finalize s.S s.key.toList tag)).complete .ok) :=
  exec_of_runsNormally (runsNormally_of_no_range (by simp) rfl)

/-- PAD has no range, so in every state it has its own effect (42_sponge.md R175). -/
theorem exec_pad {pos : Nat} (dom : BitVec 7) (s : State) (hpos : pos < 16) :
    exec (.pad pos dom) s = .next ((s.setS (padSpec s.S pos dom)).complete .ok) := by
  rw [← pad_eq_padSpec s.S dom hpos]
  exact exec_of_runsNormally (runsNormally_of_no_range (by simp) rfl)

theorem exec_absorb {tag : Byte} {dom : BitVec 7} {s : State} (h : RunsNormally (.absorb tag dom) s) :
    exec (.absorb tag dom) s =
      .next ((s.setS (absorb s.S (s.readRange (s.rangeA .mem s.len.toNat)) tag dom)).complete .ok) :=
  exec_of_runsNormally h

/-- A command other than CMP whose own effect puts `p.1` into S and `p.2` into its MEM destination completes with OK,
and changes no other byte of memory and no register but STATUS. -/
theorem exec_of_ownEffect_stream {i : Instr} {s : State} {d : Range} {p : Bytes 48 × List Byte}
    (h : RunsNormally i s) (hi : ∀ asp bsp, i ≠ .cmp asp bsp) (hd : destination i s = some d) (hmem : d.space = .mem)
    (heff : ownEffect i s = ((s.setS p.1).writeRange d p.2).complete .ok) (hlen : p.2.length = d.len) :
    ∃ t, exec i s = .next t ∧ Completed t .ok ∧ SameOperands s t ∧ t.cmpAcc = s.cmpAcc ∧ t.S = p.1 ∧
      ∀ a, (InRange d .mem a → t.mem.read a = p.2.getD (a - d.addr) 0) ∧
        (¬ InRange d .mem a → t.mem.read a = s.mem.read a) := by
  have hexec := exec_of_runsNormally h
  have hfits : Fits d := h.fits (by simp [ranges, hd])
  refine ⟨_, hexec, ?_, exec_sameOperands hexec, exec_cmpAcc hi hexec, ?_, fun a => ?_⟩ <;> rw [heff]
  · exact ⟨rfl, rfl, rfl⟩
  · rw [State.complete_S, writeRange_S_of_mem _ _ hmem, State.setS_S]
  · exact ⟨fun hin => byteIn_writeRange_inside (s.setS p.1) hlen hfits hin,
      fun hout => byteIn_writeRange_outside (s.setS p.1) hlen hfits hout⟩

/-- Where ABSORB runs normally, so does XOR of its message into S, if the message fits: a source in data memory does not
overlap a destination in S. -/
theorem runsNormally_xor_of_absorb {tag : Byte} {dom : BitVec 7} {s : State} (h : RunsNormally (.absorb tag dom) s)
    (hfits : Fits (s.rangeD .state s.len.toNat)) : RunsNormally (.xor .mem .state) s := by
  obtain ⟨-, hr, -⟩ := h
  refine ⟨nofun, fun r hmem => ?_, fun d hd q hq => .inl ?_⟩
  · obtain rfl | rfl : r = s.rangeA .mem s.len.toNat ∨ r = s.rangeD .state s.len.toNat := List.mem_pair.1 hmem
    · exact hr _ List.mem_cons_self
    · have hnone : ∀ a, ¬ InRange (s.rangeD .state s.len.toNat) .mem a := fun _ ⟨hspace, _⟩ => nomatch hspace
      exact ⟨hfits, fun a hin => absurd hin (hnone a), fun a hin => absurd hin (hnone a)⟩
  · obtain rfl := Option.some.inj hd
    obtain rfl := List.mem_singleton.1 hq
    exact fun ⟨hspace, _⟩ => nomatch hspace

/-- XOR of a message in data memory into the start of S, run normally (41_buffer_algebra.md R143). -/
theorem exec_xor_mem_state {s : State} (h : RunsNormally (.xor .mem .state) s) (hD : s.addrD = 0) :
    exec (.xor .mem .state) s =
      .next ((s.setS (xorInto s.S 0 (s.readRange (s.rangeA .mem s.len.toNat)))).complete .ok) := by
  have hlen : (s.readRange (s.rangeA .mem s.len.toNat)).length = s.len.toNat := Memory.length_readBytes _ _ _
  have hrange : s.rangeD .state s.len.toNat = ⟨.state, 0, s.len.toNat⟩ := by rw [State.rangeD, hD]; rfl
  rw [exec_of_runsNormally h, ownEffect, hrange, xorBytes_comm, xorInto, hlen]
  rfl

/-! ## The statements about the sponge -/

/-- Settles O34: each of Setup's sequences is a slice of a register field. -/
theorem setupFollowsItsFourSteps : Obligations.SetupFollowsItsFourSteps := by
  unfold Obligations.SetupFollowsItsFourSteps
  intro c key ctx iv mid kt
  have hkey (v : Bytes 48) :
      xorInto v 0 ((key.toList.drop 16).take 16) = xorRange v 0 16 (fun j => byteAt key (16 + j)) :=
    xorInto_bytesFrom v key (by decide) (by decide)
  have hiv (v : Bytes 48) : xorInto v 0 ((iv.toList.drop 15).take 5) = xorRange v 0 5 (fun j => byteAt iv (15 + j)) :=
    xorInto_bytesFrom v iv (by decide) (by decide)
  have hmid (v : Bytes 48) : xorInto v 5 (le64 mid) = xorRange v 5 8 (fun j => mid.extractLsb' (8 * j) 8) :=
    xorInto_eq_xorRange_of v (length_le64 mid) (by decide) fun _ hj => getD_le64 mid hj
  simp only [setup, putBytes_constant_context, xorInto_singleton _ 20 (show 0 < 48 by decide), hkey, hiv, hmid,
    xorInto_take _ key (a := 0) (len := 16) (by decide) (by decide),
    xorInto_take _ iv (a := 1) (len := 15) (by decide) (by decide)]

/-- Settles O36, by the one application of its step. -/
theorem finalizeAbsorbsTheKeyTwice : Obligations.FinalizeAbsorbsTheKeyTwice := by
  unfold Obligations.FinalizeAbsorbsTheKeyTwice
  intro v key ft
  rw [finalize, finalizeOnce_eq, finalizeOnce_eq]

/-- Settles O37: PAD has no range, and Pad is the spec's at every position of the rate. -/
theorem padMarksPositionAndRateEnd : Obligations.PadMarksPositionAndRateEnd := by
  unfold Obligations.PadMarksPositionAndRateEnd
  intro pos dom s hpos
  rw [exec_pad dom s hpos, State.setS_complete_eq]

/-- Settles O38: ABSORB reads its message at A. -/
theorem absorbCommandAppliesAbsorb : Obligations.AbsorbCommandAppliesAbsorb := by
  unfold Obligations.AbsorbCommandAppliesAbsorb
  intro tag dom s h
  rw [exec_absorb h, readRange_eq_map s (h.fits List.mem_cons_self), State.setS_complete_eq]
  rfl

/-- Settles O39, by the fold over the block numbers. -/
theorem absorbIsTheBlockLoop : Obligations.AbsorbIsTheBlockLoop := by
  unfold Obligations.AbsorbIsTheBlockLoop
  exact absorb_eq_foldl

/-- Settles O40: ENCSTREAM writes S and its destination, and the ciphertext is as long as the message. -/
theorem encstreamCommandEncryptsIntoD : Obligations.EncstreamCommandEncryptsIntoD := by
  unfold Obligations.EncstreamCommandEncryptsIntoD
  intro tag dom s h
  exact exec_of_ownEffect_stream (d := s.rangeD .mem s.len.toNat) h (by simp) rfl rfl rfl
    ((length_encStream _ _ _ _).trans (Memory.length_readBytes _ _ _))

/-- Settles O41, by the fold over the block numbers. -/
theorem encStreamIsTheBlockLoop : Obligations.EncStreamIsTheBlockLoop := by
  unfold Obligations.EncStreamIsTheBlockLoop
  exact encStream_eq_duplexLoop

/-- Settles O42: DECSTREAM writes S and its destination, and the plaintext is as long as the ciphertext. -/
theorem decstreamCommandDecryptsIntoD : Obligations.DecstreamCommandDecryptsIntoD := by
  unfold Obligations.DecstreamCommandDecryptsIntoD
  intro tag dom s h
  exact exec_of_ownEffect_stream (d := s.rangeD .mem s.len.toNat) h (by simp) rfl rfl rfl
    ((length_decStream _ _ _ _).trans (Memory.length_readBytes _ _ _))

/-- Settles O43, by the fold over the block numbers. -/
theorem decStreamIsTheBlockLoop : Obligations.DecStreamIsTheBlockLoop := by
  unfold Obligations.DecStreamIsTheBlockLoop
  exact decStream_eq_duplexLoop

/-- Settles O44, by induction on the number of full blocks (`decBlocks_encBlocks`). -/
theorem decStreamInvertsEncStream : Obligations.DecStreamInvertsEncStream := by
  unfold Obligations.DecStreamInvertsEncStream
  intro v u m c tag dom h
  have hlen := length_encStream v m tag dom
  have hinv := decBlocks_encBlocks tag dom _ v (m := m) rfl
  rw [← encStream, h] at hinv
  rw [h] at hlen
  rw [decStream, hlen, hinv]

/-- Settles O45: below one block Absorb is the partial block, Pad and Perm, which are the three commands. -/
theorem partialAbsorbFromPrimitives : Obligations.PartialAbsorbFromPrimitives := by
  unfold Obligations.PartialAbsorbFromPrimitives
  intro tag dom s h hlt hD
  have hD0 : s.addrD.toNat = 0 := congrArg BitVec.toNat hD
  have hfits : Fits (s.rangeD .state s.len.toNat) := show s.addrD.toNat + s.len.toNat ≤ 48 by omega
  have hlen : (s.readRange (s.rangeA .mem s.len.toNat)).length = s.len.toNat := Memory.length_readBytes _ _ _
  refine ⟨_, _, _, _, exec_xor_mem_state (runsNormally_xor_of_absorb h hfits) hD, exec_pad dom _ hlt,
    exec_permute tag _, exec_absorb h, ?_⟩
  simp only [absorb_of_lt_block tag dom s.S (hlen.trans_lt hlt), hlen, State.setS_complete_eq]

/-- Settles O33: SETUP has no range. -/
theorem setupCommandAppliesSetup : Obligations.SetupCommandAppliesSetup := by
  unfold Obligations.SetupCommandAppliesSetup
  intro tag s
  rw [exec_setup, State.setS_complete_eq]

/-- Settles O35: FINALIZE has no range. -/
theorem finalizeCommandAppliesFinalize : Obligations.FinalizeCommandAppliesFinalize := by
  unfold Obligations.FinalizeCommandAppliesFinalize
  intro tag s
  rw [exec_finalize, State.setS_complete_eq]

end Sys2Proof.Machine
end

section
/-! PROOFS. The AEAD controller of 43_aead.md: the layout SIV ‖ TAG ‖ BODY and its slices, AeadDec of what AeadEnc gives,
and what AEAD_ENC and AEAD_DEC leave when they run normally; after these rules, the statements about the two commands. -/

namespace Sys2Proof.Machine

/-! ## Slices of a byte sequence (00_scope.md R11) -/

/-- `B[a..a+len)`, byte by byte. -/
theorem take_drop_eq_map (bs : List Byte) {a len : Nat} (h : a + len ≤ bs.length) :
    (bs.drop a).take len = (List.range len).map (fun j => bs.getD (a + j) 0) := by
  refine List.ext_getElem (by simp; omega) fun j hj hj' => ?_
  have hlt : j < len := by simpa using hj'
  rw [← List.getD_eq_getElem _ 0 hj, ← List.getD_eq_getElem _ 0 hj', getD_take hlt, getD_drop, getD_map_range _ hlt]

theorem bytesFrom_eq_map {n : Nat} (v : Bytes n) {a len : Nat} (h : a + len ≤ n) :
    bytesFrom v a len = (List.range len).map (fun j => byteAt v (a + j)) :=
  take_drop_eq_map v.toList (h.trans_eq v.length_toList.symm)

/-! ## AeadEnc and AeadDec (43_aead.md R210 to R217) -/

section
variable {c : Config} {key ctx : List Byte} {mid : BitVec 64}

/-- AeadEnc in the layout of R210, given the SIV of pass 1 and the stream of pass 2. -/
theorem aeadEncrypt_eq_of {iv m siv : List Byte} {p : Bytes 48 × List Byte}
    (hsiv : deriveSiv c key ctx iv mid m = siv)
    (hp : encStream (setup c key ctx siv mid c.tagKey) m c.tagPayload c.domAead = p) :
    aeadEncrypt c key ctx iv mid m = siv ++ streamTag c key p.1 ++ p.2 := by
  subst hsiv hp
  rfl

/-- The tag check of AeadDec passes exactly if all 16 bytes of TAG are those of the recomputed tag. -/
theorem ctCmp_streamTag_eq_zero_iff {ct : List Byte} (hct : 36 ≤ ct.length) (v : Bytes 48) :
    ctCmp (streamTag c key v) ((ct.drop 20).take 16) = 0 ↔
      ∀ j, j < 16 → byteAt (finalize v key c.tagFinal) (16 + j) = ct.getD (20 + j) 0 := by
  have htag : (ct.drop 20).take 16 = (List.range 16).map (fun j => ct.getD (20 + j) 0) :=
    take_drop_eq_map ct (by omega)
  rw [htag, ctCmp_eq_zero_iff (by rw [length_streamTag]; simp), streamTag, bytesFrom_eq_map _ (by decide),
    List.map_inj_left]
  simp only [List.mem_range]

/-- AeadDec of a ciphertext in the layout of R210, whose TAG is the recomputed tag. -/
theorem aeadDecrypt_of_layout {siv tag body : List Byte} {p : Bytes 48 × List Byte} (hsiv : siv.length = 20)
    (htag : tag.length = 16)
    (hp : decStream (setup c key ctx siv mid c.tagKey) body c.tagPayload c.domAead = p)
    (hmatch : streamTag c key p.1 = tag) : aeadDecrypt c key ctx mid (siv ++ tag ++ body) = (.ok, p.2) := by
  have htake : (siv ++ tag ++ body).take 20 = siv := by rw [List.append_assoc, List.take_left' hsiv]
  have hslice : ((siv ++ tag ++ body).drop 20).take 16 = tag := by
    rw [List.append_assoc, List.drop_left' hsiv, List.take_left' htag]
  have hdrop : (siv ++ tag ++ body).drop 36 = body :=
    List.drop_left' (by rw [List.length_append, hsiv, htag])
  refine aeadDecrypt_of_match (by rw [htake, hdrop, hp]) ?_
  rw [hslice, hmatch]
  exact (ctCmp_eq_zero_iff rfl).2 rfl

/-- AeadDec inverts AeadEnc: the SIV in the ciphertext starts the same pass 2, and DecStream inverts EncStream, so the
tags are the same (43_aead.md R221). -/
theorem aeadDecrypt_aeadEncrypt (iv m : List Byte) :
    aeadDecrypt c key ctx mid (aeadEncrypt c key ctx iv mid m) = (.ok, m) := by
  rw [aeadEncrypt_eq_of rfl rfl]
  exact aeadDecrypt_of_layout (length_deriveSiv ..) (length_streamTag ..)
    (decStreamInvertsEncStream _ _ m _ c.tagPayload c.domAead rfl) rfl

end

/-! ## The commands, run normally (43_aead.md R215, R218, R219) -/

/-- The bytes an AEAD command reads from A before it writes anything. -/
def inputA (s : State) : List Byte := s.readRange (s.rangeA .mem s.len.toNat)

theorem length_inputA (s : State) : (inputA s).length = s.len.toNat := Memory.length_readBytes _ _ _

/-- From `s`, a command has completed in `t` with code `c`: its destination `d` holds the bytes `v`, S is zero, and
nothing else has changed but STATUS. -/
structure WroteAndZeroed (s t : State) (d : Range) (c : Code) (v : List Byte) : Prop where
  completed : Completed t c
  operands : SameOperands s t
  cmpAcc : t.cmpAcc = s.cmpAcc
  S : t.S = Vector.replicate 48 0
  inside : ∀ a, InRange d .mem a → t.mem.read a = v.getD (a - d.addr) 0
  outside : ∀ a, ¬ InRange d .mem a → t.mem.read a = s.mem.read a

theorem WroteAndZeroed.read {s t : State} {d : Range} {c : Code} {v : List Byte} (h : WroteAndZeroed s t d c v)
    (hmem : d.space = .mem) {k : Nat} (hk : k < d.len) : t.mem.read (d.addr + k) = v.getD k 0 := by
  rw [h.inside _ ⟨hmem, by omega, by omega⟩, Nat.add_sub_cancel_left]

/-- A later read of the whole destination gives the bytes written. -/
theorem WroteAndZeroed.readBytes {s t : State} {d : Range} {c : Code} {v : List Byte} (h : WroteAndZeroed s t d c v)
    (hmem : d.space = .mem) (hlen : v.length = d.len) : t.mem.readBytes d.addr d.len = v := by
  refine List.ext_getElem (by rw [Memory.length_readBytes, hlen]) fun k hk hk' => ?_
  have hlt : k < d.len := hlen ▸ hk'
  rw [← List.getD_eq_getElem _ 0 hk, ← List.getD_eq_getElem _ 0 hk', Memory.getD_readBytes _ _ _ hlt, h.read hmem hlt]

theorem IsAead.ne_cmp {i : Instr} (h : IsAead i) (asp bsp : Space) : i ≠ .cmp asp bsp := by
  rcases h with rfl | rfl <;> nofun

/-- An AEAD command whose own effect is one write of its destination, zeroing S and completion. -/
theorem exec_of_ownEffect_aead {i : Instr} {s : State} {d : Range} {c : Code} {v : List Byte} (hi : IsAead i)
    (h : RunsNormally i s) (hd : destination i s = some d)
    (heff : ownEffect i s = ((s.writeRange d v).setS zeroState).complete c) (hlen : v.length = d.len) :
    ∃ t, exec i s = .next t ∧ WroteAndZeroed s t d c v := by
  have hexec := exec_of_runsNormally h
  have hfits : Fits d := h.fits (by simp [ranges, hd])
  refine ⟨_, hexec, ?_, exec_sameOperands hexec, exec_cmpAcc hi.ne_cmp hexec, ?_, fun a hin => ?_, fun a hout => ?_⟩ <;>
    rw [heff]
  · exact ⟨rfl, rfl, rfl⟩
  · rfl
  · exact byteIn_writeRange_inside s hlen hfits hin
  · exact byteIn_writeRange_outside s hlen hfits hout

theorem exec_aeadEnc {s : State} (h : RunsNormally .aeadEnc s) : ∃ t, exec .aeadEnc s = .next t ∧
    WroteAndZeroed s t (s.rangeD .mem (s.len.toNat + 36)) .ok
      (aeadEncrypt s.cfg s.key.toList s.ctx.toList s.iv.toList s.msgid (inputA s)) :=
  exec_of_ownEffect_aead (.inl rfl) h rfl rfl (by rw [length_aeadEncrypt, length_inputA]; rfl)

theorem exec_aeadDec {s : State} {r : Code × List Byte} (h : RunsNormally .aeadDec s)
    (hdec : aeadDecrypt s.cfg s.key.toList s.ctx.toList s.msgid (inputA s) = r) :
    ∃ t, exec .aeadDec s = .next t ∧ WroteAndZeroed s t (s.rangeD .mem (s.len.toNat - 36)) r.1 r.2 := by
  subst hdec
  exact exec_of_ownEffect_aead (.inr rfl) h rfl rfl (by rw [length_aeadDecrypt, length_inputA]; rfl)

/-- AEAD_DEC has no range in S, so a validation error of it is LEN, WRAP or ALIAS (43_aead.md R218). -/
theorem validationError_aeadDec_code {s : State} {e : Code} (h : validationError .aeadDec s = some e) :
    e = .len ∨ e = .wrap ∨ e = .aliasing := by
  have hstate : stateRangesOk .aeadDec s = true := rfl
  simp only [validationError, hstate, Bool.not_true, Bool.false_eq_true, if_false] at h
  split_ifs at h <;> cases h <;> simp

/-! ## The statements about the AEAD controller -/

/-- Settles O46: the own effect of AEAD_ENC is one write of AeadEnc's bytes, and S zeroed. -/
theorem aeadEncWritesTheCiphertext : Obligations.AeadEncWritesTheCiphertext := by
  unfold Obligations.AeadEncWritesTheCiphertext
  intro s h
  obtain ⟨t, hexec, ht⟩ := exec_aeadEnc h
  exact ⟨t, hexec, ht.completed, ht.operands, ht.cmpAcc, ht.S, fun a => ⟨ht.inside a, ht.outside a⟩⟩

/-- Settles O47: SIV and TAG are slices of S, byte by byte. -/
theorem ciphertextLayoutAndPasses : Obligations.CiphertextLayoutAndPasses := by
  unfold Obligations.CiphertextLayoutAndPasses
  intro c key ctx iv mid m u₁ siv p u₂ tag
  have hsiv : deriveSiv c key.toList ctx.toList iv.toList mid m = siv := bytesFrom_eq_map u₁ (by decide)
  have htag : streamTag c key.toList p.1 = tag := bytesFrom_eq_map u₂ (by decide)
  exact ⟨htag ▸ aeadEncrypt_eq_of hsiv rfl, length_encStream _ _ _ _, length_aeadEncrypt _ _ _ _ _ _⟩

/-- Settles O48: AEAD_DEC writes what AeadDec gives, whose tag check compares all 16 bytes. -/
theorem aeadDecReleasesPlaintextOnlyOnMatch : Obligations.AeadDecReleasesPlaintextOnlyOnMatch := by
  unfold Obligations.AeadDecReleasesPlaintextOnlyOnMatch
  intro s h c p u
  have hlen : c.length = s.len.toNat := length_inputA s
  have hcheck := ctCmp_streamTag_eq_zero_iff (c := s.cfg) (key := s.key.toList) (hlen ▸ h.1 rfl) p.1
  by_cases hmatch : ∀ j, j < 16 → byteAt u (16 + j) = c.getD (20 + j) 0
  · obtain ⟨t, hexec, ht⟩ := exec_aeadDec h (aeadDecrypt_of_match rfl (hcheck.2 hmatch))
    exact ⟨t, hexec, ht.operands, ht.cmpAcc, ht.S, ht.outside, fun _ => ⟨ht.completed, fun k => ht.read rfl⟩,
      fun ⟨j, hj, hne⟩ => absurd (hmatch j hj) hne⟩
  · obtain ⟨t, hexec, ht⟩ := exec_aeadDec h (aeadDecrypt_of_mismatch rfl (mt hcheck.1 hmatch))
    exact ⟨t, hexec, ht.operands, ht.cmpAcc, ht.S, ht.outside, fun hall => absurd hall hmatch,
      fun _ => ⟨ht.completed, fun k hk => (ht.read rfl hk).trans (getD_zeros _ _)⟩⟩

/-- Settles O49: AEAD_DEC reads the ciphertext that AEAD_ENC wrote, and AeadDec inverts AeadEnc. -/
theorem aeadRoundTrip : Obligations.AeadRoundTrip := by
  unfold Obligations.AeadRoundTrip
  intro s t d n henc hexec hn hdec
  obtain ⟨t', hexec', ht⟩ := exec_aeadEnc henc
  obtain rfl : t' = t := by
    rw [hexec'] at hexec
    exact Host.Outcome.next.inj hexec
  have hct : inputA { t' with addrA := s.addrD, addrD := d, len := n } =
      aeadEncrypt s.cfg s.key.toList s.ctx.toList s.iv.toList s.msgid (inputA s) := by
    rw [← ht.readBytes rfl (by rw [length_aeadEncrypt, length_inputA]; rfl)]
    exact congrArg (t'.mem.readBytes s.addrD.toNat) hn
  obtain ⟨hkey, hctx, -, hmid, -, -, -, -, -, -, -, hcfg, -⟩ := ht.operands
  obtain ⟨u, hu, hplain⟩ := exec_aeadDec hdec (r := (.ok, inputA s))
    (by rw [hct, hkey, hctx, hmid, hcfg, aeadDecrypt_aeadEncrypt])
  refine ⟨u, hu, hplain.completed, fun k hk => ?_⟩
  have hkn : k < n.toNat - 36 := by omega
  exact (hplain.read rfl hkn).trans (getD_map_range _ hk)

/-- Settles O50: both encryptions write AeadEnc of the same bytes, read before anything is written. -/
theorem inPlaceEncryptionEqualsOutOfPlace : Obligations.InPlaceEncryptionEqualsOutOfPlace := by
  unfold Obligations.InPlaceEncryptionEqualsOutOfPlace
  intro s d hD hin hout
  obtain ⟨t, ht, htc⟩ := exec_aeadEnc hin
  obtain ⟨u, hu, huc⟩ := exec_aeadEnc hout
  refine ⟨t, u, ht, hu, fun k hk => ?_⟩
  rw [← hD]
  exact (htc.read rfl hk).trans (huc.read rfl hk).symm

/-- Settles O51: of the four outcomes of a command, idempotent memory leaves a validation error, BUS, and the normal run
of `aeadDecReleasesPlaintextOnlyOnMatch`. -/
theorem decryptionIsAllOrNothing : Obligations.DecryptionIsAllOrNothing := by
  unfold Obligations.DecryptionIsAllOrNothing
  intro s t hidem hexec c p
  rcases exec_cases hexec with ⟨e, he, rfl⟩ | ⟨-, -, rfl⟩ | ⟨-, -, hm, -⟩ | ⟨hrun, -⟩
  · rcases validationError_aeadDec_code he with rfl | rfl | rfl <;> exact ⟨nofun, nofun, fun _ => rfl, by simp⟩
  · simp
  · simp [(memIdempotent_iff .aeadDec s).2 hidem] at hm
  · obtain ⟨t', hexec', -, -, -, -, hok, hauth⟩ := aeadDecReleasesPlaintextOnlyOnMatch s hrun
    obtain rfl : t' = t := by
      rw [hexec'] at hexec
      exact Host.Outcome.next.inj hexec
    by_cases hmatch : ∀ j, j < 16 →
        byteAt (finalize p.1 s.key.toList s.cfg.tagFinal) (16 + j) = c.getD (20 + j) 0
    · obtain ⟨⟨hcode, -⟩, hplain⟩ := hok hmatch
      simp only [hcode]
      exact ⟨fun _ => ⟨hmatch, hplain⟩, nofun, by simp, by simp⟩
    · push Not at hmatch
      obtain ⟨⟨hcode, -⟩, hzero⟩ := hauth hmatch
      simp only [hcode]
      exact ⟨nofun, fun _ => hzero, by simp, by simp⟩

end Sys2Proof.Machine
end

section
/-! PROOFS. Completion, issue and errors of 60_exceptions.md: the flags and the code that each outcome of a command sets,
the order of the checks (R242), the flags a host write can change (R247, R248), and the invariant under a perform and
under a host write; after these rules, the statements about perform, CMD, IRQ, the errors and the invariant. -/

namespace Sys2Proof.Machine

/-! ## The flags and the code of each outcome (60_exceptions.md R241, R246) -/

@[simp] theorem ownEffect_busy (i : Instr) (s : State) : (ownEffect i s).busy = false := by
  cases i <;> rfl

@[simp] theorem ownEffect_done (i : Instr) (s : State) : (ownEffect i s).done = true := by
  cases i <;> rfl

@[simp] theorem completeSpoiled_busy (i : Instr) (s : State) : (completeSpoiled i s).busy = false := by
  cases i <;> rfl

@[simp] theorem completeSpoiled_done (i : Instr) (s : State) : (completeSpoiled i s).done = true := by
  cases i <;> rfl

theorem aeadDecrypt_code (c : Config) (key ctx : List Byte) (mid : BitVec 64) (ct : List Byte) :
    (aeadDecrypt c key ctx mid ct).1 = .ok ∨ (aeadDecrypt c key ctx mid ct).1 = .auth := by
  simp only [aeadDecrypt]
  split
  · exact .inl rfl
  · exact .inr rfl

/-- The code of a command that met no error before its effect: OK, or AUTH for AEAD_DEC (60_exceptions.md R241). -/
def EffectCode (i : Instr) (c : Code) : Prop := c = .ok ∨ (i = .aeadDec ∧ c = .auth)

theorem effectCode_ownEffect (i : Instr) (s : State) : EffectCode i (ownEffect i s).errcode := by
  cases i with
  | aeadDec =>
    rw [ownEffect, State.complete_errcode]
    exact (aeadDecrypt_code _ _ _ _ _).imp_right fun h => ⟨rfl, h⟩
  | _ => exact .inl (State.complete_errcode _ _)

theorem effectCode_completeSpoiled (i : Instr) (s : State) : EffectCode i (completeSpoiled i s).errcode := by
  cases i with
  | aeadDec =>
    by_cases hdraw : Config.freeByte s.draws = 0
    · exact .inl (if_pos hdraw)
    · exact .inr ⟨rfl, if_neg hdraw⟩
  | _ => exact .inl rfl

/-! ## The first check that fails (60_exceptions.md R242) -/

theorem validationError_eq_len {i : Instr} {s : State} (hi : i = .aeadDec) (hlt : s.len.toNat < 36) :
    validationError i s = some .len := by
  have hl : lengthOk i s = false := Bool.eq_false_iff.2 fun h => absurd ((lengthOk_iff i s).1 h hi) (by omega)
  simp [validationError, hl]

section
variable {i : Instr} {s : State}

theorem busOk_eq_false (h : ∃ r ∈ ranges i s, ¬ Admitted s.cfg r) : busOk i s = false := by
  obtain ⟨r, hr, hbad⟩ := h
  exact Bool.eq_false_iff.2 fun hb => hbad ((busOk_iff i s).1 hb r hr)

variable (hlen : i = .aeadDec → 36 ≤ s.len.toNat)
include hlen

theorem validationError_eq_stateRange (h : ∃ r ∈ ranges i s, r.space = .state ∧ ¬ Fits r) :
    validationError i s = some .stateRange := by
  obtain ⟨r, hr, hsp, hbad⟩ := h
  have hs : stateRangesOk i s = false :=
    Bool.eq_false_iff.2 fun hall => hbad ((stateRangesOk_iff i s).1 hall r hr hsp)
  simp [validationError, (lengthOk_iff i s).2 hlen, hs]

theorem validationError_eq_wrap (hstate : ∀ r ∈ ranges i s, r.space = .state → Fits r)
    (h : ∃ r ∈ ranges i s, r.space = .mem ∧ ¬ Fits r) : validationError i s = some .wrap := by
  obtain ⟨r, hr, hsp, hbad⟩ := h
  have hm : memRangesOk i s = false :=
    Bool.eq_false_iff.2 fun hall => hbad ((memRangesOk_iff i s).1 hall r hr hsp)
  simp [validationError, (lengthOk_iff i s).2 hlen, (stateRangesOk_iff i s).2 hstate, hm]

variable (hfits : ∀ r ∈ ranges i s, Fits r)
include hfits

theorem validationError_eq_aliasing (h : ¬ AliasAdmitted i s) : validationError i s = some .aliasing := by
  have ha : aliasingOk i s = false := Bool.eq_false_iff.2 (mt (aliasingOk_iff i s).1 h)
  simp [validationError, (lengthOk_iff i s).2 hlen, (stateRangesOk_iff i s).2 fun r hr _ => hfits r hr,
    (memRangesOk_iff i s).2 fun r hr _ => hfits r hr, ha]

theorem validationError_eq_none (h : AliasAdmitted i s) : validationError i s = none :=
  (validationError_eq_none_iff i s).2 ⟨(lengthOk_iff i s).2 hlen, (stateRangesOk_iff i s).2 fun r hr _ => hfits r hr,
    (memRangesOk_iff i s).2 fun r hr _ => hfits r hr, (aliasingOk_iff i s).2 h⟩

end

/-! ## The outcome of a command by its checks (60_exceptions.md R242) -/

theorem exec_of_validationError {i : Instr} {s : State} {e : Code} (h : validationError i s = some e) :
    exec i s = .next (s.complete e) := by
  rw [exec_eq, runCommand, h]

theorem errcode_of_validationError {i : Instr} {s t : State} {e : Code} (hv : validationError i s = some e)
    (h : exec i s = .next t) : t.errcode = e := by
  rw [exec_of_validationError hv] at h
  injection h with h
  rw [← h, State.complete_errcode]

theorem exec_of_busError {i : Instr} {s : State} (hv : validationError i s = none) (hb : busOk i s = false) :
    exec i s = .next (completeBus i (spoil i s)) := by
  simp [exec_eq, runCommand, hv, hb]

theorem errcode_of_busError {i : Instr} {s t : State} (hv : validationError i s = none) (hb : busOk i s = false)
    (h : exec i s = .next t) : t.errcode = .bus := by
  rw [exec_of_busError hv hb] at h
  injection h with h
  rw [← h, completeBus_errcode]

/-- A command that passes its validation and its bus check completes with OK, or AEAD_DEC with AUTH. -/
theorem effectCode_of_checks {i : Instr} {s t : State} (hv : validationError i s = none) (hb : busOk i s = true)
    (h : exec i s = .next t) : EffectCode i t.errcode := by
  rcases exec_cases h with ⟨e, he, -⟩ | ⟨-, hbus, -⟩ | ⟨-, -, -, rfl⟩ | ⟨-, rfl⟩
  · simp [hv] at he
  · simp [hb] at hbus
  · exact effectCode_completeSpoiled i _
  · exact effectCode_ownEffect i s

/-- Which outcome a code tells of: a validation error, BUS, or a command that met no error before its effect. -/
theorem exec_errcode_cases {i : Instr} {s t : State} (h : exec i s = .next t) :
    (validationError i s = some t.errcode ∧ t = s.complete t.errcode) ∨ t.errcode = .bus ∨ EffectCode i t.errcode := by
  rcases exec_cases h with ⟨e, he, rfl⟩ | ⟨-, -, rfl⟩ | ⟨-, -, -, rfl⟩ | ⟨-, rfl⟩
  · exact .inl ⟨he, rfl⟩
  · exact .inr (.inl (completeBus_errcode i _))
  · exact .inr (.inr (effectCode_completeSpoiled i _))
  · exact .inr (.inr (effectCode_ownEffect i s))

/-- ILLEGAL is the code of words, never of a decoded command. -/
theorem exec_errcode_ne_illegal {i : Instr} {s t : State} (h : exec i s = .next t) : t.errcode ≠ .illegal := by
  rcases exec_errcode_cases h with ⟨he, -⟩ | hcode | hcode | ⟨-, hcode⟩
  · rcases validationError_code he with hcode | hcode | hcode | hcode <;> simp [hcode]
  · simp [hcode]
  · simp [hcode]
  · simp [hcode]

/-- Every outcome of a command completes it (60_exceptions.md R246). -/
theorem exec_completes {i : Instr} {s t : State} (h : exec i s = .next t) : t.busy = false ∧ t.done = true := by
  rcases exec_cases h with ⟨e, -, rfl⟩ | ⟨-, -, rfl⟩ | ⟨-, -, -, rfl⟩ | ⟨-, rfl⟩ <;> simp

/-! ## The engine's turn (60_exceptions.md R246) -/

/-- The engine's turn, taken from the list or by default, is that of the state without it (log 6). -/
theorem step_of_engine_turn {s : State} (h : s.pending = [] ∨ ∃ rest, s.pending = .engine :: rest) :
    step s = engineTurn (s.setPending s.pending.tail) := by
  rcases h with hp | ⟨rest, hp⟩
  · have hself : s.setPending s.pending.tail = s := by rw [hp, List.tail_nil, ← hp]; rfl
    rw [step_of_no_input hp, hself]
  · rw [step_of_pending hp, hp]
    rfl

/-- While BUSY = 1 the engine's turn completes the latched word, legal or not. -/
theorem engineTurn_completes {s : State} (hb : s.busy = true) :
    ∃ t, engineTurn s = .next t ∧ t.busy = false ∧ t.done = true := by
  cases hd : decode s.cmdl with
  | ok i =>
    rw [engineTurn_of_legal hb hd]
    exact ⟨_, exec_eq i s, exec_completes (exec_eq i s)⟩
  | error e => exact ⟨_, engineTurn_of_illegal hb hd, rfl, rfl⟩

theorem engineTurn_sameOperands {s t : State} (h : engineTurn s = .next t) : SameOperands s t := by
  rcases engineTurn_cases h with ⟨-, rfl⟩ | ⟨-, i, -, hi⟩ | ⟨-, -, rfl⟩
  · simp [SameOperands]
  · exact exec_sameOperands hi
  · simp [SameOperands]

/-- OVR is no command's to write (60_exceptions.md R248). -/
theorem engineTurn_ovr {s t : State} (h : engineTurn s = .next t) : t.ovr = s.ovr := by
  obtain ⟨-, -, -, -, -, -, -, -, -, hovr, -⟩ := engineTurn_sameOperands h
  exact hovr

theorem engineTurn_cfg {s t : State} (h : engineTurn s = .next t) : t.cfg = s.cfg := by
  obtain ⟨-, -, -, -, -, -, -, -, -, -, -, hcfg, -⟩ := engineTurn_sameOperands h
  exact hcfg

/-! ## The flags a host register write can change (60_exceptions.md R247, R248) -/

theorem State.cmdWrite_of_idle {s : State} (h : s.busy = false) (v : Word) : s.cmdWrite v = s.issue v := by
  simp [State.cmdWrite, h]

/-- A register write is STATUS's, or CMD's, or it leaves the four fields of STATUS alone. -/
theorem writeReg_status_cases (s : State) (r : Reg) (v : Word) :
    (r = .status ∧ writeReg s r v = s.statusWrite v) ∨ (r = .cmd ∧ writeReg s r v = s.cmdWrite v) ∨
    ((writeReg s r v).busy = s.busy ∧ (writeReg s r v).done = s.done ∧ (writeReg s r v).ovr = s.ovr ∧
      (writeReg s r v).errcode = s.errcode) := by
  cases r with
  | status => exact .inl ⟨rfl, rfl⟩
  | cmd => exact .inr (.inl ⟨rfl, rfl⟩)
  | ctrl | cmpAcc | reserved => exact .inr (.inr ⟨rfl, rfl, rfl, rfl⟩)
  | _ =>
    refine .inr (.inr ?_)
    cases hb : s.busy <;> simp [writeReg, State.unlessBusy, hb]

/-- Only a write of 1 to STATUS bit 4 clears OVR (60_exceptions.md R248). -/
theorem writeReg_clears_ovr {s : State} {r : Reg} {v : Word} (hs : s.ovr = true) (h : (writeReg s r v).ovr = false) :
    r = .status ∧ v.getLsbD 4 = true := by
  rcases writeReg_status_cases s r v with ⟨hr, hw⟩ | ⟨-, hw⟩ | ⟨-, -, hovr, -⟩
  · rw [hw] at h
    exact ⟨hr, by simpa [State.statusWrite, hs] using h⟩
  · cases hb : s.busy with
    | false => simp [hw, State.cmdWrite_of_idle hb, hs] at h
    | true => simp [hw, State.cmdWrite_of_busy hb] at h
  · simp [hovr, hs] at h

/-- The offset that names STATUS (10_state.md R23). -/
theorem Reg.ofOffset_eq_status {off : Nat} (h : Reg.ofOffset off = .status) (h256 : off < 256) (h4 : off % 4 = 0) :
    off = 4 := by
  have hoff := Reg.offset?_ofOffset h256 h4
  rw [h] at hoff
  simpa [Reg.offset?, eq_comm] using hoff

/-- The ways a step can clear OVR: reset, or a host write of 1 to STATUS bit 4 (60_exceptions.md R248). -/
theorem step_clears_ovr {s t : State} (h : step s = .next t) (hs : s.ovr = true) (ht : t.ovr = false) :
    (∃ rest, s.pending = .reset :: rest) ∨
    (∃ a v rest, s.pending = .regWrite a 4 v :: rest ∧ a.toNat = s.cfg.regBase.toNat + 4 ∧ v.getLsbD 4 = true) := by
  have hne : t.ovr ≠ s.ovr := by simp [hs, ht]
  rcases step_cases h with ⟨-, he⟩ | ⟨rest, -, he⟩ | ⟨rest, a, w, v, r, hp, ha, rfl⟩ |
    ⟨rest, a, w, r, -, -, rfl⟩ | ⟨rest, a, v, -, rfl⟩ | ⟨rest, a, -, rfl⟩ | ⟨rest, hp, -⟩
  · exact absurd (engineTurn_ovr he) hne
  · exact absurd (engineTurn_ovr he) hne
  · obtain ⟨off, rfl, h4, h256, haddr, hoff⟩ := accessedReg_ok ha
    obtain ⟨hr, hv⟩ := writeReg_clears_ovr (s := s.setPending rest) hs ht
    obtain rfl := Reg.ofOffset_eq_status (hoff ▸ hr) h256 h4
    exact .inr ⟨a, v, rest, hp, haddr, hv⟩
  · exact absurd rfl hne
  · exact absurd rfl hne
  · exact absurd rfl hne
  · exact .inl ⟨rest, hp⟩

/-! ## What keeps the invariant (60_exceptions.md R246, R247; 20_memory.md R60) -/

/-- A command that runs normally keeps memory in its canonical form. -/
theorem wf_ownEffect {i : Instr} {s : State} (h : RunsNormally i s) (hm : s.mem.wf = true) :
    (ownEffect i s).mem.wf = true := by
  cases hd : destination i s with
  | none => rwa [ownEffect_mem_of_no_destination hd]
  | some d =>
    obtain ⟨v, hv, hmem⟩ := ownEffect_mem_of_destination h hd
    rw [hmem]
    exact wf_writeRange s d v hm (h.fits (by simp [ranges, hd])) hv

/-- Every outcome of a command keeps memory in its canonical form: what is written lies in a destination that passed
validation. -/
theorem wf_exec {i : Instr} {s t : State} (hm : s.mem.wf = true) (h : exec i s = .next t) : t.mem.wf = true := by
  have hspoil : validationError i s = none → (spoil i s).mem.wf = true := fun hv =>
    wf_spoil i s hm fun d hd => fits_of_validationError_none hv (by simp [ranges, hd])
  rcases exec_cases h with ⟨e, -, rfl⟩ | ⟨hv, -, rfl⟩ | ⟨hv, -, -, rfl⟩ | ⟨hrun, rfl⟩
  · exact hm
  · rw [completeBus_mem]
    exact hspoil hv
  · rw [completeSpoiled_mem]
    exact hspoil hv
  · exact wf_ownEffect hrun hm

theorem MachineInv.setPending {s : State} (h : MachineInv s) (l : List Input) : MachineInv (s.setPending l) := h

/-- With BUSY = 0 the invariant asks nothing of the flags. -/
theorem machineInv_of_idle {t : State} (hm : t.mem.wf = true) (hc : t.cfg.wellFormed = true) (hb : t.busy = false) :
    MachineInv t :=
  ⟨hm, hc, fun h => absurd h (by simp [hb])⟩

theorem MachineInv.engineTurn {s t : State} (hs : MachineInv s) (h : engineTurn s = .next t) : MachineInv t := by
  have hcfg := engineTurn_cfg h
  obtain ⟨hm, hc, -⟩ := id hs
  rcases engineTurn_cases h with ⟨-, rfl⟩ | ⟨-, i, -, hi⟩ | ⟨-, -, rfl⟩
  · exact hs
  · exact machineInv_of_idle (wf_exec hm hi) (hcfg ▸ hc) (exec_completes hi).1
  · exact machineInv_of_idle hm hc rfl

theorem MachineInv.writeReg {s : State} (hs : MachineInv s) (r : Reg) (v : Word) : MachineInv (writeReg s r v) := by
  obtain ⟨hm, hc, hflags⟩ := hs
  obtain ⟨hmem, hcfg⟩ := writeReg_mem_cfg s r v
  refine ⟨hmem ▸ hm, hcfg ▸ hc, ?_⟩
  rcases writeReg_status_cases s r v with ⟨-, hw⟩ | ⟨-, hw⟩ | ⟨hbusy, hdone, -, hcode⟩
  · rw [hw]
    exact fun hb => ⟨by simp [State.statusWrite, (hflags hb).1], (hflags hb).2⟩
  · rw [hw]
    cases hb : s.busy with
    | false => simp [State.cmdWrite_of_idle hb]
    | true =>
      rw [State.cmdWrite_of_busy hb]
      exact hflags
  · rwa [hbusy, hdone, hcode]

/-! ## The statements -/

/-- Settles O59: a perform writes memory inside a validated destination and completes; of the register writes only
those to STATUS and CMD touch the flags, and the one that sets BUSY clears the others. -/
theorem stepKeepsTheInvariant : Obligations.StepKeepsTheInvariant := by
  unfold Obligations.StepKeepsTheInvariant
  intro s t hs h
  obtain ⟨hm, hc, hflags⟩ := id hs
  rcases step_cases h with ⟨-, he⟩ | ⟨rest, -, he⟩ | ⟨rest, a, w, v, r, -, -, rfl⟩ |
    ⟨rest, a, w, r, -, -, rfl⟩ | ⟨rest, a, v, -, rfl⟩ | ⟨rest, a, -, rfl⟩ | ⟨rest, -, rfl⟩
  · exact hs.engineTurn he
  · exact (hs.setPending rest).engineTurn he
  · exact (hs.setPending rest).writeReg r v
  · exact hs
  · exact ⟨Memory.wf_set v hm a.isLt, hc, hflags⟩
  · exact hs
  · exact machineInv_of_idle (wf_platformReset hm) hc rfl

/-- Settles O7: every outcome of a command completes it, and so does the turn of an illegal word. -/
theorem everyPerformCompletes : Obligations.EveryPerformCompletes := by
  unfold Obligations.EveryPerformCompletes
  refine ⟨fun i s => ⟨_, exec_eq i s, exec_completes (exec_eq i s)⟩, fun s hb hp => ?_⟩
  rw [step_of_no_input hp]
  exact engineTurn_completes hb

/-- Settles O8: offset 8 names CMD, whose write issues or sets OVR; and OVR is cleared only as `step_clears_ovr` says. -/
theorem commandWriteIssuesOrSetsOverrun : Obligations.CommandWriteIssuesOrSetsOverrun := by
  unfold Obligations.CommandWriteIssuesOrSetsOverrun
  refine ⟨fun s a w rest hp ha => ?_, fun s t => step_clears_ovr⟩
  have hstep : step s = .next ((s.setPending rest).cmdWrite w) :=
    step_regWrite_ok hp (accessedReg_of_aligned ha (by decide) rfl (by decide))
  rw [hstep]
  refine ⟨fun hb => ?_, fun hb => ?_⟩
  · rw [State.cmdWrite_of_idle (s := s.setPending rest) hb]
    rfl
  · rw [State.cmdWrite_of_busy (s := s.setPending rest) hb]
    rfl

/-- Settles O17: completion sets DONE and keeps IE; each of the three writes clears one of the two. -/
theorem interruptIsDoneAndEnable : Obligations.InterruptIsDoneAndEnable := by
  unfold Obligations.InterruptIsDoneAndEnable
  refine ⟨fun _ => rfl, fun i s t h => ?_, fun s v hv => ?_, fun s v hv => ?_, fun s v hb => ?_⟩
  · obtain ⟨-, -, -, -, -, -, -, -, hie, -⟩ := exec_sameOperands h
    rw [State.irq, (exec_completes h).2, hie, Bool.true_and]
  · simp [writeReg, State.statusWrite, State.irq, hv]
  · rw [State.irq, writeReg, State.ctrlWrite, hv, Bool.and_false]
  · simp [writeReg, State.cmdWrite_of_idle hb, State.irq]

/-- Settles O55: no other outcome of a command has the code of a validation error, and no command has ILLEGAL. -/
theorem validationErrorsChangeOnlyStatus : Obligations.ValidationErrorsChangeOnlyStatus := by
  unfold Obligations.ValidationErrorsChangeOnlyStatus
  refine ⟨fun i s t h hcode => ?_, fun s t hb hturn h hcode => ?_⟩
  · rcases exec_errcode_cases h with ⟨-, ht⟩ | hbus | hok | ⟨-, hauth⟩
    · exact ht
    · simp [hbus] at hcode
    · simp [hok] at hcode
    · simp [hauth] at hcode
  · rw [step_of_engine_turn hturn] at h
    rcases engineTurn_cases h with ⟨hidle, -⟩ | ⟨-, i, -, hi⟩ | ⟨-, -, ht⟩
    · simp [hb] at hidle
    · exact absurd hcode (exec_errcode_ne_illegal hi)
    · exact ht

/-- Settles O56: the premises of each clause pass the checks before its own and fail that one, whose code is reported. -/
theorem errorsAreReportedInOrder : Obligations.ErrorsAreReportedInOrder := by
  unfold Obligations.ErrorsAreReportedInOrder
  refine ⟨fun s t e hb hturn hd h => ?_, fun i s t h =>
    ⟨fun ⟨hi, hlt⟩ => errcode_of_validationError (validationError_eq_len hi hlt) h, fun hlen =>
    ⟨fun hbad => errcode_of_validationError (validationError_eq_stateRange hlen hbad) h, fun hstate =>
    ⟨fun hbad => errcode_of_validationError (validationError_eq_wrap hlen hstate hbad) h, fun hfits =>
    ⟨fun hbad => errcode_of_validationError (validationError_eq_aliasing hlen hfits hbad) h, fun halias => ?_⟩⟩⟩⟩⟩
  · rw [step_of_engine_turn hturn, engineTurn_of_illegal (s := s.setPending s.pending.tail) hb hd] at h
    injection h with h
    rw [← h, State.complete_errcode]
  · have hv := validationError_eq_none hlen hfits halias
    exact ⟨fun hbad => errcode_of_busError hv (busOk_eq_false hbad) h,
      fun hadm => effectCode_of_checks hv ((busOk_iff i s).2 hadm) h⟩

/-- Settles O57: after BUS the state is the free outcome of `spoil`, completed with BUS. -/
theorem busErrorOutcome : Obligations.BusErrorOutcome := by
  unfold Obligations.BusErrorOutcome
  intro i s hlen hfits halias hbad
  have hexec := exec_of_busError (validationError_eq_none hlen hfits halias) (busOk_eq_false hbad)
  refine ⟨_, hexec, ⟨completeBus_errcode _ _, completeBus_busy _ _, completeBus_done _ _⟩, exec_sameOperands hexec,
    fun a ha => ?_, fun hi => completeBus_S_of_aead hi _,
    fun hS => (completeBus_S_of_not_aead hS.not_isAead _).trans (hS.spoil_S s), fun hi => exec_cmpAcc hi hexec⟩
  rw [completeBus_mem, read_spoil i s a ha]

end Sys2Proof.Machine
end

section
/-! PROOFS. Data memory at reset (70_reset_and_hazards.md R271, R272): the bytes that an abandoned command frees lie in
its MEM destination; after this rule, the statement about reset. -/

namespace Sys2Proof.Machine

/-- The range of an abandoned command is part of the running command's destination: only its length is cut
(70_reset_and_hazards.md R271). -/
theorem inRange_destination_of_abandonedRange {s : State} {r : Range} {a : Nat} (h : abandonedRange s = some r)
    (ha : InRange r .mem a) :
    ∃ i d, s.busy = true ∧ decode s.cmdl = .ok i ∧ destination i s = some d ∧ InRange d .mem a := by
  obtain ⟨i, d, hb, hdec, hd, hsp, rfl⟩ := abandonedRange_eq_some h
  obtain ⟨-, hlo, hhi⟩ := ha
  have hcut : d.addr + min d.len (2 ^ 32 - d.addr) ≤ d.addr + d.len := Nat.add_le_add_left (Nat.min_le_left _ _) _
  exact ⟨i, d, hb, hdec, hd, hsp, hlo, hhi.trans_le hcut⟩

/-- Settles O16: an idle engine abandons no command, and a busy one frees at most its destination. -/
theorem resetKeepsMemoryOutsideAnAbandonedDestination :
    Obligations.ResetKeepsMemoryOutsideAnAbandonedDestination := by
  unfold Obligations.ResetKeepsMemoryOutsideAnAbandonedDestination
  intro s t rest hp hs
  rw [step_reset hp] at hs
  injection hs with ht
  subst ht
  refine ⟨fun hidle => platformReset_mem_of_idle hidle, fun a hout =>
    read_platformReset (s.setPending rest) a fun r hr hin => ?_⟩
  obtain ⟨i, d, hb, hdec, hd, ha⟩ := inRange_destination_of_abandonedRange hr hin
  exact hout i d hb hdec (by simpa using hd) ha

end Sys2Proof.Machine
end
